-- ==== Sys2Proof/Word.lean ====
section
/-! DEFINITION. The word types: a byte, a program-counter word, a register index (00_scope.md R8, R11; 10_state.md R27). -/

namespace Sys2Proof

/-- An 8-bit unsigned value: a register, a memory cell, an opcode or operand byte (00_scope.md R8). -/
abbrev Byte := BitVec 8

/-- A program-counter value, 9 bits (10_state.md R27). -/
abbrev PcWord := BitVec 9

/-- A register index, 0 to 7 (10_state.md R21). -/
abbrev RegIdx := Fin 8

/-- The operand byte that names a register (30_encoding.md R78). -/
def regByte (r : RegIdx) : Byte := BitVec.ofNat 8 r.val

end Sys2Proof
end

