-- ==== Sys2Proof/Config.lean ====
section
/-! DEFINITION. What is fixed for the machine (00_scope.md R8) and the parameters the spec leaves open (00_scope.md R9). -/

namespace Sys2Proof

/-- The 13 instructions as names, the domain of `OPCODE_MAP` (30_encoding.md R75). -/
inductive Op where
  | halt | loadImmediate | printRegister | multiply | add | push | pop | call | ret
  | compare | jump | jumpIfEqual | jumpIfNotEqual
deriving DecidableEq, Repr

/-- Memory has 256 cells, addresses 0 to 255 (20_memory.md R50). -/
def Config.memorySize : Nat := 256

/-- Register 7 is the stack pointer (10_state.md R22). -/
def Config.stackPointer : RegIdx := 7

/-- The reset parameters the source leaves open (00_scope.md R9; 92_eei_decisions.md D9, D10, D11).
They are arguments of the reset interaction, never part of the state. -/
structure Config.InitParams where
  /-- `REG_INIT`: the bytes of R0 to R6 at run start. -/
  regInit : Fin 7 → Byte
  /-- `FLAGS_INIT`: E, L and G at run start; not required to have exactly one true. -/
  flagsInit : Bool × Bool × Bool
  /-- `MEM_INIT`: the bytes of the cells the image does not cover. -/
  memInit : Fin 256 → Byte

end Sys2Proof
end

