-- ==== Sys2Proof/Syntax.lean ====
section
/-! DEFINITION. The instructions, one constructor per row of spec/opcode_table.json (30_encoding.md R76, R77). -/

namespace Sys2Proof

/-- An instruction with its operand BYTES as fetched (30_encoding.md R77): a register operand is a raw byte 0-255, whose
range is checked when the instruction executes (40_execution_loop.md R105), because a byte above 7 is not an illegal encoding
but raises RegisterIndexFault. `ret` is RETURN. -/
inductive Instr where
  | halt
  | loadImmediate (reg value : Byte)
  | printRegister (reg : Byte)
  | multiply (regA regB : Byte)
  | add (regA regB : Byte)
  | push (reg : Byte)
  | pop (reg : Byte)
  | call (reg : Byte)
  | ret
  | compare (regA regB : Byte)
  | jump (reg : Byte)
  | jumpIfEqual (reg : Byte)
  | jumpIfNotEqual (reg : Byte)
deriving DecidableEq, Repr

end Sys2Proof
end

