-- ==== Sys2Proof/WellFormed.lean ====
section
/-! DEFINITION. Which operands are register indices, and the check that each is 0-7 (30_encoding.md R77, R78). -/

namespace Sys2Proof

/-- The register-index operands of an instruction, a1 before a2 (30_encoding.md R77). The immediate of LOAD_IMMEDIATE is
none of them. -/
def Instr.registerOperands : Instr → List Byte
  | .halt => []
  | .loadImmediate reg _ => [reg]
  | .printRegister reg => [reg]
  | .multiply regA regB => [regA, regB]
  | .add regA regB => [regA, regB]
  | .push reg => [reg]
  | .pop reg => [reg]
  | .call reg => [reg]
  | .ret => []
  | .compare regA regB => [regA, regB]
  | .jump reg => [reg]
  | .jumpIfEqual reg => [reg]
  | .jumpIfNotEqual reg => [reg]

/-- The operand byte names a register (30_encoding.md R78: values 0-7). -/
def isRegister (b : Byte) : Bool := b.toNat < 8

/-- Well-formed: every register operand names a register. An instruction that is not well-formed still decodes and, when
it executes, raises RegisterIndexFault (40_execution_loop.md R105). -/
def Instr.wellFormed (i : Instr) : Bool := i.registerOperands.all isRegister

end Sys2Proof
end

