-- ==== Sys2Proof/Decode.lean ====
section
/-! DEFINITION. The instruction decoder (30_encoding.md): the two facts in an opcode byte, `OPCODE_MAP` and its default,
decoding of bytes with a named reason for each refusal, the encoder, and the host's table words. -/

namespace Sys2Proof

/-! ### The opcode byte -/

/-- The operand count, op[7:6], with the mask 0xC0 (30_encoding.md R71, R87). -/
def opcodeCount (op : Byte) : Nat := ((op &&& 0xC0) >>> 6).toNat

/-- The length in bytes, count + 1 (30_encoding.md R71). -/
def opcodeLength (op : Byte) : Nat := opcodeCount op + 1

/-- The PC-sets-itself bit, op[4] (30_encoding.md R73). -/
def opcodeSetsPc (op : Byte) : Bool := op.getLsbD 4

/-! ### The opcode assignment -/

/-- The 13 instructions. -/
def Op.all : List Op :=
  [.halt, .loadImmediate, .printRegister, .multiply, .add, .push, .pop, .call, .ret,
   .compare, .jump, .jumpIfEqual, .jumpIfNotEqual]

/-- The operand count of each instruction (the source's table, 30_encoding.md R75 (b)). -/
def Op.operandCount : Op → Nat
  | .halt => 0
  | .loadImmediate => 2
  | .printRegister => 1
  | .multiply => 2
  | .add => 2
  | .push => 1
  | .pop => 1
  | .call => 1
  | .ret => 0
  | .compare => 2
  | .jump => 1
  | .jumpIfEqual => 1
  | .jumpIfNotEqual => 1

/-- The instructions that set pc themselves (30_encoding.md R75 (c)). -/
def Op.setsPc : Op → Bool
  | .call | .ret | .jump | .jumpIfEqual | .jumpIfNotEqual => true
  | .halt | .loadImmediate | .printRegister | .multiply | .add | .push | .pop | .compare => false

/-- `OPCODE_MAP` with the constraints every value of it must satisfy (30_encoding.md R75). The decoder and the step take it
as an argument; what is proved for every `OpcodeMap` holds for every legal assignment. -/
structure OpcodeMap where
  /-- The opcode byte of an instruction. -/
  byte : Op → Byte
  /-- R75 (a): injective. -/
  injective : ∀ i j, byte i = byte j → i = j
  /-- R75 (b): op[7:6] is the operand count. -/
  count_eq : ∀ i, opcodeCount (byte i) = i.operandCount
  /-- R75 (c): op[4] is 1 exactly for the instructions that set pc. -/
  setsPc_eq : ∀ i, opcodeSetsPc (byte i) = i.setsPc
  /-- R75 (d): 0xFF is unassigned. -/
  ff_unassigned : ∀ i, byte i ≠ 0xFF

/-- The default opcode bytes (30_encoding.md R76). PRESUMED: the spec takes them from general knowledge, the LS-8
assignment (log entry 1). -/
def defaultOpcodeByte : Op → Byte
  | .halt => 0x01
  | .loadImmediate => 0x82
  | .printRegister => 0x47
  | .multiply => 0xA2
  | .add => 0xA0
  | .push => 0x45
  | .pop => 0x46
  | .call => 0x50
  | .ret => 0x11
  | .compare => 0xA7
  | .jump => 0x54
  | .jumpIfEqual => 0x55
  | .jumpIfNotEqual => 0x56

/-- The default `OPCODE_MAP` (30_encoding.md R76); its proofs say that every row satisfies R75. -/
def defaultOpcodeMap : OpcodeMap where
  byte := defaultOpcodeByte
  injective := by intro i j; cases i <;> cases j <;> decide
  count_eq := by intro i; cases i <;> decide
  setsPc_eq := by intro i; cases i <;> decide
  ff_unassigned := by intro i; cases i <;> decide

/-! ### Decoding -/

/-- What the decoder produces for a valid opcode byte (30_encoding.md R79). -/
structure Decoded where
  instr : Op
  count : Nat
  length : Nat
  setsPc : Bool
deriving DecidableEq, Repr

/-- The decoder (30_encoding.md R80): valid exactly when the byte is in the image of `OPCODE_MAP`; count, length and
sets_pc come from the byte's bits. `none` is Invalid. -/
def decodeOpcode (m : OpcodeMap) (op : Byte) : Option Decoded :=
  match Op.all.find? (fun o => decide (m.byte o = op)) with
  | some o => some { instr := o, count := opcodeCount op, length := opcodeLength op, setsPc := opcodeSetsPc op }
  | none => none

/-- An instruction from its operand bytes, a1 first (30_encoding.md R77). An `OpcodeMap` makes the list as long as the
instruction's operand count, so the filler 0x00 is never read (log entry 12). -/
def assemble (o : Op) (operands : List Byte) : Instr :=
  let a1 := operands.getD 0 0
  let a2 := operands.getD 1 0
  match o with
  | .halt => .halt
  | .loadImmediate => .loadImmediate a1 a2
  | .printRegister => .printRegister a1
  | .multiply => .multiply a1 a2
  | .add => .add a1 a2
  | .push => .push a1
  | .pop => .pop a1
  | .call => .call a1
  | .ret => .ret
  | .compare => .compare a1 a2
  | .jump => .jump a1
  | .jumpIfEqual => .jumpIfEqual a1
  | .jumpIfNotEqual => .jumpIfNotEqual a1

/-- Why bytes are not an instruction. -/
inductive Reject where
  /-- There is no byte at all. -/
  | noOpcode
  /-- The opcode byte is not in the image of `OPCODE_MAP` (30_encoding.md R81). -/
  | unassigned (op : Byte)
  /-- Operand `k` (1 or 2) of a valid opcode is the first for which no byte is left. -/
  | missingOperand (op : Byte) (k : Nat)
deriving DecidableEq, Repr

/-- Decode the instruction at the head of a list of bytes: the instruction and the bytes after it, or why there is none.
The opcode is checked before any operand (40_execution_loop.md R103). Register indices are not checked here: they are no
part of the encoding's legality (30_encoding.md R82). -/
def decodeWith (m : OpcodeMap) (bytes : List Byte) : Except Reject (Instr × List Byte) :=
  match bytes with
  | [] => .error .noOpcode
  | op :: rest =>
    match decodeOpcode m op with
    | none => .error (.unassigned op)
    | some d =>
      if rest.length < d.count then .error (.missingOperand op (rest.length + 1))
      else .ok (assemble d.instr (rest.take d.count), rest.drop d.count)

/-- The decoder under the default map. -/
def decode (bytes : List Byte) : Except Reject (Instr × List Byte) := decodeWith defaultOpcodeMap bytes

/-! ### Encoding -/

/-- The instruction's name (30_encoding.md R76). -/
def Instr.op : Instr → Op
  | .halt => .halt
  | .loadImmediate _ _ => .loadImmediate
  | .printRegister _ => .printRegister
  | .multiply _ _ => .multiply
  | .add _ _ => .add
  | .push _ => .push
  | .pop _ => .pop
  | .call _ => .call
  | .ret => .ret
  | .compare _ _ => .compare
  | .jump _ => .jump
  | .jumpIfEqual _ => .jumpIfEqual
  | .jumpIfNotEqual _ => .jumpIfNotEqual

/-- The operand bytes in the order they follow the opcode (30_encoding.md R70, R77). -/
def Instr.operandBytes : Instr → List Byte
  | .halt => []
  | .loadImmediate reg value => [reg, value]
  | .printRegister reg => [reg]
  | .multiply regA regB => [regA, regB]
  | .add regA regB => [regA, regB]
  | .push reg => [reg]
  | .pop reg => [reg]
  | .call reg => [reg]
  | .ret => []
  | .compare regA regB => [regA, regB]
  | .jump reg => [reg]
  | .jumpIfEqual reg => [reg]
  | .jumpIfNotEqual reg => [reg]

/-- The bytes of an instruction, opcode first (30_encoding.md R70). -/
def encodeWith (m : OpcodeMap) (i : Instr) : List Byte := m.byte i.op :: i.operandBytes

/-- The encoder under the default map. -/
def encode (i : Instr) : List Byte := encodeWith defaultOpcodeMap i

/-! ### The host's table words -/

/-- The bytes of a table word of `nbits` bits, lowest address first: bit 0 of the word is bit 0 of the first byte; the bits
above `nbits` are 0, up to the longest instruction, three bytes. -/
def wordBytes (nbits w : Nat) : List Byte :=
  let v := w % 2 ^ nbits
  [BitVec.ofNat 8 v, BitVec.ofNat 8 (v / 256), BitVec.ofNat 8 (v / 65536)]

/-- The instruction the decoder reads from a table word (spec/opcode_table.json's numbering of bits). -/
def decodeTableWord (nbits w : Nat) : Option Instr :=
  match decode (wordBytes nbits w) with
  | .ok (i, _) => some i
  | .error _ => none

end Sys2Proof
end

