-- ==== Sys2Proof/Machine/RunStart.lean ====
section
/-! DEFINITION. The values run start sets (70_reset_and_hazards.md R252, R253) and the defaults the model names for the
parameters the source leaves open. -/

namespace Sys2Proof.Machine

/-- SP at run start, 244 (10_state.md R26). -/
def spInit : Byte := 0xF4

/-- pc at run start, 0 (70_reset_and_hazards.md R252). -/
def pcInit : PcWord := 0

/-- DESIGN CHOICE (log entry 2): the byte of each of R0-R6 in `State.reset`, the spec's simulator default for `REG_INIT`
(10_state.md R26). -/
def regInitDefault : Byte := 0x00

/-- DESIGN CHOICE (log entry 3): each flag in `State.reset`, the spec's simulator default for `FLAGS_INIT` (10_state.md R30). -/
def flagInitDefault : Bool := false

/-- DESIGN CHOICE (log entry 4): what a memory cell that nothing has written reads as, the spec's simulator default for
`MEM_INIT` (70_reset_and_hazards.md R253). -/
def memInitDefault : Byte := 0x00

/-- The reset parameters `State.reset` stands for (log entries 2, 3, 4). -/
def defaultInitParams : Config.InitParams where
  regInit := fun _ => regInitDefault
  flagsInit := (flagInitDefault, flagInitDefault, flagInitDefault)
  memInit := fun _ => memInitDefault

end Sys2Proof.Machine
end

