-- ==== Sys2Proof/Machine/Memory.lean ====
section
/-! DEFINITION. Memory as plain data: the cells that differ from what an unlisted address reads as, in one canonical form
(20_memory.md R50). -/

namespace Sys2Proof.Machine

/-- The 256 cells M[0]..M[255] (20_memory.md R50): a list of (address, byte) pairs, addresses strictly rising, no pair equal
to what an unlisted address reads as. -/
abbrev Memory := List Host.Cell

/-- What an unlisted address reads as (log entry 4). -/
def Memory.unlisted : Byte := memInitDefault

/-- The byte at an address. -/
def Memory.read : Memory → Nat → Byte
  | [], _ => Memory.unlisted
  | (b, v) :: rest, a => if a = b then v else Memory.read rest a

/-- Put a cell in front, unless it holds what an unlisted address reads as. -/
def Memory.cons (a : Nat) (v : Byte) (rest : Memory) : Memory :=
  if v = Memory.unlisted then rest else (a, v) :: rest

/-- Write the byte at an address, keeping the canonical form. -/
def Memory.write : Memory → Nat → Byte → Memory
  | [], a, v => Memory.cons a v []
  | (b, w) :: rest, a, v =>
    if a < b then Memory.cons a v ((b, w) :: rest)
    else if a = b then Memory.cons a v rest
    else (b, w) :: Memory.write rest a v

/-- The canonical form from address `lo` up: rising addresses below 256, no cell equal to an unlisted one. -/
def Memory.wfFrom : Nat → Memory → Bool
  | _, [] => true
  | lo, (b, v) :: rest =>
    decide (lo ≤ b) && decide (b < Config.memorySize) && decide (v ≠ Memory.unlisted) && Memory.wfFrom (b + 1) rest

/-- The canonical form of a whole memory. -/
def Memory.wf (m : Memory) : Bool := Memory.wfFrom 0 m

/-- The memory whose `n` cells from address `lo` up are given by `f`, and which lists nothing else. -/
def Memory.build (f : Nat → Byte) : (n lo : Nat) → Memory
  | 0, _ => []
  | n + 1, lo => Memory.cons lo (f lo) (Memory.build f n (lo + 1))

end Sys2Proof.Machine
end

