-- ==== Sys2Proof/Machine/State.lean ====
section
/-! DEFINITION. The machine's state (10_state.md R20), the reasons a step can stop, and the state after reset. -/

namespace Sys2Proof.Machine

/-- The condition flags Equal, Less-than, Greater-than (10_state.md R30). -/
structure Flags where
  E : Bool
  L : Bool
  G : Bool
deriving DecidableEq, Repr

/-- The loop's two states (10_state.md R31; 40_execution_loop.md R100). -/
inductive RunState where
  | running
  | halted
deriving DecidableEq, Repr

/-- Why the block halted (10_state.md R32). -/
inductive HaltReason where
  | none
  | haltInstruction
  | decodeError
  | addressFault
  | registerIndexFault
deriving DecidableEq, Repr

/-- The five kinds of address fault (60_exceptions.md R222). -/
inductive AddressKind where
  | fetch
  | operand
  | spDecrement
  | spIncrement
  | returnAddress
deriving DecidableEq, Repr

/-- `diag.detail` (10_state.md R33): nothing for a decode error, the kind and the offending address value for an address
fault (-1 for an SP decrement), the operand byte for a register-index fault. -/
inductive Detail where
  | nothing
  | address (kind : AddressKind) (value : Int)
  | operandByte (b : Byte)
deriving DecidableEq, Repr

/-- The record of the fault that stopped the block (10_state.md R33). `opcode` is `none` when it could not be fetched. -/
structure Diag where
  pc : PcWord
  opcode : Option Byte
  detail : Detail
deriving DecidableEq, Repr

/-- The architectural state, exactly 10_state.md R20. -/
structure State where
  /-- The register file; `x[7]` is SP (R21, R22). -/
  x : Vector Byte 8
  /-- The program counter (R27). -/
  pc : PcWord
  /-- E, L and G (R30). -/
  flags : Flags
  /-- M[0]..M[255] (20_memory.md R50). -/
  mem : Memory
  /-- Running or Halted (R31). -/
  runState : RunState
  /-- Why the block halted (R32). -/
  haltReason : HaltReason
  /-- The fault's diagnostic; `none` is empty (R33; 70_reset_and_hazards.md R252). -/
  diag : Option Diag
  /-- Everything PRINT_REGISTER has emitted, oldest first (R37). -/
  out : List Byte
deriving DecidableEq, Repr

/-- Why `step` answers `fault`. The faults of the SPEC (decode error, address fault, register-index fault) are not here: the
spec describes their entry, so the step that takes one answers a next state (log entry 6). -/
inductive Fault where
  /-- Raised by `step` alone, in a state whose run_state is Halted: no step is enabled there (40_execution_loop.md R100).
  Safe: the model stops where the block stops (log entry 5). -/
  | halted
deriving DecidableEq, Repr

/-- Why `step` answers `refused`. -/
inductive Refusal where
  /-- The instruction has no meaning in the model. Raised by an arm of `exec` that rejects by name; no arm does. Safe. -/
  | notModelled (mnemonic : String)
deriving DecidableEq, Repr

/-- The state when the first step begins, for the empty image (70_reset_and_hazards.md R253): SP, pc, run_state,
halt_reason, diag and out as R252 sets them; R0-R6, the flags and memory at the values log entries 2, 3 and 4 name.
`State.afterReset` is the reset for every image and every value of the open parameters. -/
def State.reset : State where
  x := #v[regInitDefault, regInitDefault, regInitDefault, regInitDefault, regInitDefault, regInitDefault, regInitDefault, spInit]
  pc := pcInit
  flags := { E := flagInitDefault, L := flagInitDefault, G := flagInitDefault }
  mem := []
  runState := .running
  haltReason := .none
  diag := none
  out := []

end Sys2Proof.Machine
end

