-- ==== Sys2Proof/Machine/Flags.lean ====
section
/-! DEFINITION. The condition flags' one computation, COMPARE's (41_alu.md R134, R136). -/

namespace Sys2Proof.Machine

/-- All three flags false. -/
def Flags.clear : Flags := { E := false, L := false, G := false }

/-- The flags after comparing A with B: reset all, then set exactly one, by unsigned comparison (41_alu.md R134). -/
def compareFlags (A B : Byte) : Flags :=
  if A.toNat = B.toNat then { Flags.clear with E := true }
  else if A.toNat < B.toNat then { Flags.clear with L := true }
  else { Flags.clear with G := true }

end Sys2Proof.Machine
end

