-- ==== Sys2Proof/Machine/Ops.lean ====
section
/-! DEFINITION. The named operations the instructions share (00_scope.md R12): registers, memory, the stack, output, halting,
entering a fault, and committing an instruction's staged writes. -/

namespace Sys2Proof.Machine

/-! ### Reads and writes of one part of the state -/

/-- `x[r]` (00_scope.md R12). -/
def State.reg (s : State) (r : RegIdx) : Byte := s.x[r]

/-- `x[r] <- v`. No register is hardwired (10_state.md R23). -/
def State.setReg (s : State) (r : RegIdx) (v : Byte) : State := { s with x := s.x.set r.val v r.isLt }

/-- `sp`, the same storage as `x[7]` (10_state.md R22). -/
def State.sp (s : State) : Byte := s.reg Config.stackPointer

/-- `x[7] <- v`. -/
def State.setSp (s : State) (v : Byte) : State := s.setReg Config.stackPointer v

/-- `pc <- v`. -/
def State.setPc (s : State) (v : PcWord) : State := { s with pc := v }

/-- `pc <- v` for a byte: a jump target or a popped return address, always in [0,255] (44_control_flow.md R196). -/
def State.jumpTo (s : State) (v : Byte) : State := s.setPc (v.zeroExtend 9)

/-- All three flags at once (10_state.md R30). -/
def State.setFlags (s : State) (f : Flags) : State := { s with flags := f }

/-- The cell at a byte address, which is always in [0,255] (20_memory.md R53: the stack's accesses never present another). -/
def State.load (s : State) (a : Byte) : Byte := s.mem.read a.toNat

/-- Write the cell at a byte address (20_memory.md R53). -/
def State.store (s : State) (a v : Byte) : State := { s with mem := s.mem.write a.toNat v }

/-- `emit(v)`: append the value to the output channel (10_state.md R37). -/
def State.emit (s : State) (v : Byte) : State := { s with out := s.out ++ [v] }

/-- `halt(reason)` (10_state.md R32). -/
def State.halt (s : State) (r : HaltReason) : State := { s with runState := .halted, haltReason := r }

/-! ### Faults -/

/-- A fault a step raises, with its information (60_exceptions.md R220). -/
inductive Cause where
  | decodeError
  | addressFault (kind : AddressKind) (value : Int)
  | registerIndexFault (operand : Byte)
deriving DecidableEq, Repr

/-- The halt_reason of a cause (60_exceptions.md R220). -/
def Cause.haltReason : Cause → HaltReason
  | .decodeError => .decodeError
  | .addressFault _ _ => .addressFault
  | .registerIndexFault _ => .registerIndexFault

/-- What the diagnostic records beside pc and opcode (10_state.md R33). -/
def Cause.detail : Cause → Detail
  | .decodeError => .nothing
  | .addressFault kind value => .address kind value
  | .registerIndexFault b => .operandByte b

/-- Fault entry (60_exceptions.md R226), applied to the state BEFORE the instruction, so that every staged write is
discarded: run_state and halt_reason as `halt` sets them, diag as the record; pc and everything else unchanged. There is no
return from a fault (60_exceptions.md R229), so nothing stands beside it. -/
def State.faultEntry (s : State) (c : Cause) (opcode : Option Byte) : State :=
  { s.halt c.haltReason with diag := some { pc := s.pc, opcode := opcode, detail := c.detail } }

/-- MemRead(a, 1) at an unsigned address (20_memory.md R53), `kind` given by the caller. Only a fetch can present an
address above 255. -/
def State.memRead (s : State) (kind : AddressKind) (a : Nat) : Except Cause Byte :=
  if 255 < a then .error (.addressFault kind a) else .ok (s.mem.read a)

/-- The opcode byte of the instruction at pc, as the loop fetched it; `none` where pc is above 255 (10_state.md R33).
DEDUCED (log entry 7): a fault of a handler records this byte, read from the state before the instruction's staged writes. -/
def State.opcodeAtPc (s : State) : Option Byte := (s.memRead .fetch s.pc.toNat).toOption

/-- End an instruction (00_scope.md R13): either all its staged writes take effect, or it raised a fault and fault entry is
its only effect. `s` is the state before the instruction. -/
def commit (s : State) (staged : Except Cause State) : Host.Outcome State Fault Refusal :=
  match staged with
  | .ok t => .next t
  | .error c => .next (s.faultEntry c s.opcodeAtPc)

/-! ### The stack (43_stack.md) -/

/-- The pre-decrement of a push (43_stack.md R170). -/
def State.decSp (s : State) : Except Cause State :=
  if s.sp = 0 then .error (.addressFault .spDecrement (-1)) else .ok (s.setSp (s.sp - 1))

/-- The post-increment of a pop (43_stack.md R171). -/
def State.incSp (s : State) : Except Cause State :=
  if s.sp = 255 then .error (.addressFault .spIncrement 256) else .ok (s.setSp (s.sp + 1))

/-- `Push(v)` for an unsigned integer `v` (43_stack.md R170): SP is decremented, then a value above 255 faults, then the cell
at the new SP is written. -/
def State.push (s : State) (v : Nat) : Except Cause State :=
  match s.decSp with
  | .error c => .error c
  | .ok t => if 255 < v then .error (.addressFault .returnAddress v) else .ok (t.store t.sp (BitVec.ofNat 8 v))

/-- `PopValue()` (43_stack.md R171): the cell at SP, then SP is incremented; the cell keeps its value. -/
def State.popValue (s : State) : Except Cause (Byte × State) :=
  match s.incSp with
  | .error c => .error c
  | .ok t => .ok (s.load s.sp, t)

end Sys2Proof.Machine
end

