-- ==== Sys2Proof/Machine/Operands.lean ====
section
/-! DEFINITION. The operand forms (30_encoding.md R78): a register index, checked before the handler runs, and an immediate,
used unchanged. -/

namespace Sys2Proof.Machine

/-- A register-index operand: a byte 0-7 names a register; a byte 8-255 raises RegisterIndexFault with the byte
(40_execution_loop.md R105). An instruction with two nests the calls, a1 outside, so a1 is checked before a2. -/
def withReg {α : Type} (a : Byte) (k : RegIdx → Except Cause α) : Except Cause α :=
  if h : a.toNat < 8 then k ⟨a.toNat, h⟩ else .error (.registerIndexFault a)

/-- An immediate operand: the operand byte itself, no extension, no scaling (30_encoding.md R78). -/
def immediate (a : Byte) : Byte := a

end Sys2Proof.Machine
end

