-- ==== Sys2Proof/Machine/Alu.lean ====
section
/-! DEFINITION. The ALU and its instructions ADD, MULTIPLY, COMPARE (41_alu.md). -/

namespace Sys2Proof.Machine

/-- The ALU's select: exactly two values (41_alu.md R130), so an unsupported operation cannot be expressed (60_exceptions.md
R224). -/
inductive AluOp where
  | add
  | mul
deriving DecidableEq, Repr

/-- The ALU: exact over the naturals, then reduced mod 256 (41_alu.md R130, R131). It writes no flag. -/
def alu (sel : AluOp) (A B : Byte) : Byte :=
  match sel with
  | .add => BitVec.ofNat 8 ((A.toNat + B.toNat) % 256)
  | .mul => BitVec.ofNat 8 ((A.toNat * B.toNat) % 256)

/-- ADD regA, regB (41_alu.md R132). -/
def execAdd (regA regB : Byte) (s : State) : Host.Outcome State Fault Refusal :=
  commit s (withReg regA fun a => withReg regB fun b => .ok (s.setReg a (alu .add (s.reg a) (s.reg b))))

/-- MULTIPLY regA, regB (41_alu.md R133). -/
def execMultiply (regA regB : Byte) (s : State) : Host.Outcome State Fault Refusal :=
  commit s (withReg regA fun a => withReg regB fun b => .ok (s.setReg a (alu .mul (s.reg a) (s.reg b))))

/-- COMPARE regA, regB (41_alu.md R134): it does not use the ALU and writes only the flags. -/
def execCompare (regA regB : Byte) (s : State) : Host.Outcome State Fault Refusal :=
  commit s (withReg regA fun a => withReg regB fun b => .ok (s.setFlags (compareFlags (s.reg a) (s.reg b))))

end Sys2Proof.Machine
end

