-- ==== Sys2Proof/Machine/ControlFlow.lean ====
section
/-! DEFINITION. The control-flow instructions (44_control_flow.md). In each, pc is the address of the instruction's own
opcode byte (10_state.md R28). -/

namespace Sys2Proof.Machine

/-- HALT (44_control_flow.md R190). The loop then advances pc by 1 (40_execution_loop.md R109). -/
def execHalt (s : State) : Host.Outcome State Fault Refusal :=
  commit s (.ok (s.halt .haltInstruction))

/-- CALL reg (44_control_flow.md R191): push pc + 2, then jump to the register, read after the push. -/
def execCall (reg : Byte) (s : State) : Host.Outcome State Fault Refusal :=
  commit s (withReg reg fun r =>
    match s.push (s.pc.toNat + 2) with
    | .error c => .error c
    | .ok t => .ok (t.jumpTo (t.reg r)))

/-- RETURN (44_control_flow.md R192). -/
def execRet (s : State) : Host.Outcome State Fault Refusal :=
  commit s (match s.popValue with
    | .error c => .error c
    | .ok (v, t) => .ok (t.jumpTo v))

/-- JUMP reg (44_control_flow.md R193). -/
def execJump (reg : Byte) (s : State) : Host.Outcome State Fault Refusal :=
  commit s (withReg reg fun r => .ok (s.jumpTo (s.reg r)))

/-- The conditional jump's two paths: taken, or the handler's own fall-through by 2 (40_execution_loop.md R114). -/
def State.branch (s : State) (taken : Bool) (target : Byte) : State :=
  if taken then s.jumpTo target else s.setPc (s.pc + 2)

/-- JUMP_IF_EQUAL reg (44_control_flow.md R194). -/
def execJumpIfEqual (reg : Byte) (s : State) : Host.Outcome State Fault Refusal :=
  commit s (withReg reg fun r => .ok (s.branch s.flags.E (s.reg r)))

/-- JUMP_IF_NOT_EQUAL reg (44_control_flow.md R195). -/
def execJumpIfNotEqual (reg : Byte) (s : State) : Host.Outcome State Fault Refusal :=
  commit s (withReg reg fun r => .ok (s.branch (!s.flags.E) (s.reg r)))

end Sys2Proof.Machine
end

