-- ==== Sys2Proof/Machine/DataMove.lean ====
section
/-! DEFINITION. The data-move instructions LOAD_IMMEDIATE and PRINT_REGISTER (42_data_move.md). -/

namespace Sys2Proof.Machine

/-- LOAD_IMMEDIATE reg, value (42_data_move.md R150). The immediate is never checked. -/
def execLoadImmediate (reg value : Byte) (s : State) : Host.Outcome State Fault Refusal :=
  commit s (withReg reg fun r => .ok (s.setReg r (immediate value)))

/-- PRINT_REGISTER reg (42_data_move.md R151). -/
def execPrintRegister (reg : Byte) (s : State) : Host.Outcome State Fault Refusal :=
  commit s (withReg reg fun r => .ok (s.emit (s.reg r)))

end Sys2Proof.Machine
end

