-- ==== Sys2Proof/Machine/Stack.lean ====
section
/-! DEFINITION. The stack instructions PUSH and POP (43_stack.md). -/

namespace Sys2Proof.Machine

/-- PUSH reg (43_stack.md R172): the register is read after the decrement, so PUSH R7 stores the decremented SP. -/
def execPush (reg : Byte) (s : State) : Host.Outcome State Fault Refusal :=
  commit s (withReg reg fun r =>
    match s.decSp with
    | .error c => .error c
    | .ok t => .ok (t.store t.sp (t.reg r)))

/-- POP reg (43_stack.md R173): the register is written, then SP, read after that write, is incremented, so POP R7 leaves SP
at the popped value plus 1 and faults where that value is 255. -/
def execPop (reg : Byte) (s : State) : Host.Outcome State Fault Refusal :=
  commit s (withReg reg fun r => (s.setReg r (s.load s.sp)).incSp)

end Sys2Proof.Machine
end

