-- ==== Sys2Proof/Machine/Dispatch.lean ====
section
/-! DEFINITION. The dispatch table: the fixed mapping from instruction to handler (40_execution_loop.md R106, R113). -/

namespace Sys2Proof.Machine

/-- Sub-steps (4) and (5) of a step (40_execution_loop.md R101): the register-index check and the handler. The pc advance is
the loop's (R107), in Machine/Loop.lean. -/
def exec (i : Instr) (s : State) : Host.Outcome State Fault Refusal :=
  match i with
  | .halt => Sys2Proof.Machine.execHalt s
  | .loadImmediate reg value => Sys2Proof.Machine.execLoadImmediate reg value s
  | .printRegister reg => Sys2Proof.Machine.execPrintRegister reg s
  | .multiply regA regB => Sys2Proof.Machine.execMultiply regA regB s
  | .add regA regB => Sys2Proof.Machine.execAdd regA regB s
  | .push reg => Sys2Proof.Machine.execPush reg s
  | .pop reg => Sys2Proof.Machine.execPop reg s
  | .call reg => Sys2Proof.Machine.execCall reg s
  | .ret => Sys2Proof.Machine.execRet s
  | .compare regA regB => Sys2Proof.Machine.execCompare regA regB s
  | .jump reg => Sys2Proof.Machine.execJump reg s
  | .jumpIfEqual reg => Sys2Proof.Machine.execJumpIfEqual reg s
  | .jumpIfNotEqual reg => Sys2Proof.Machine.execJumpIfNotEqual reg s

end Sys2Proof.Machine
end

