-- ==== Sys2Proof/Machine/Loop.lean ====
section
/-! DEFINITION. The execution loop (40_execution_loop.md): the fetch, the PC-advance FSM, one step under any `OPCODE_MAP`, and
the loop with its halt detection under fuel. -/

namespace Sys2Proof.Machine

/-- Fetch `n` operand bytes, the next one at pc + `k`, in increasing order (40_execution_loop.md R104). -/
def State.fetchOperands (s : State) : (n k : Nat) → Except Cause (List Byte)
  | 0, _ => .ok []
  | n + 1, k =>
    match s.memRead .operand (s.pc.toNat + k) with
    | .error c => .error c
    | .ok b =>
      match s.fetchOperands n (k + 1) with
      | .error c => .error c
      | .ok bs => .ok (b :: bs)

/-- A fetch that raised a fault: the cause, and the opcode byte if it was fetched. -/
structure FetchFault where
  cause : Cause
  opcode : Option Byte
deriving DecidableEq, Repr

/-- What the fetch gives the loop: the opcode byte and the assembled instruction. -/
structure Fetched where
  opcode : Byte
  instr : Instr
deriving DecidableEq, Repr

/-- Sub-steps (1) to (3) of a step (40_execution_loop.md R101): the opcode (R102), its decoding (R103), its operands (R104). -/
def State.fetch (m : OpcodeMap) (s : State) : Except FetchFault Fetched :=
  match s.memRead .fetch s.pc.toNat with
  | .error c => .error { cause := c, opcode := none }
  | .ok op =>
    match decodeOpcode m op with
    | none => .error { cause := .decodeError, opcode := some op }
    | some d =>
      match s.fetchOperands d.count 1 with
      | .error c => .error { cause := c, opcode := some op }
      | .ok operands => .ok { opcode := op, instr := assemble d.instr operands }

/-- Whether the instruction that led here, from a Running state, ended in fault entry (60_exceptions.md R226): only fault
entry leaves a Halted state with one of the three fault reasons (40_execution_loop.md R111). -/
def State.faulted (s : State) : Bool :=
  decide (s.runState = .halted) &&
    decide (s.haltReason = .decodeError ∨ s.haltReason = .addressFault ∨ s.haltReason = .registerIndexFault)

/-- Sub-step (6), the PC-advance FSM (40_execution_loop.md R107): after a handler that did not fault, pc moves on by the
opcode's length unless the opcode's bit 4 is set. Both come from the opcode byte's bits alone (R108). -/
def State.advancePc (op : Byte) (s : State) : State :=
  if s.faulted || opcodeSetsPc op then s else s.setPc (s.pc + BitVec.ofNat 9 (opcodeLength op))

/-- One step under an `OPCODE_MAP` (40_execution_loop.md R101), enabled only while Running (R100, log entry 5). -/
def stepWith (m : OpcodeMap) (s : State) : Host.Outcome State Fault Refusal :=
  match s.runState with
  | .halted => .fault .halted
  | .running =>
    match s.fetch m with
    | .error f => .next (s.faultEntry f.cause f.opcode)
    | .ok f =>
      match exec f.instr s with
      | .next t => .next (t.advancePc f.opcode)
      | .fault r => .fault r
      | .refused r => .refused r

/-- The loop with its halt detection before every step, under fuel (40_execution_loop.md R110, R112): it stops at Halted, and a
run still Running when the fuel is spent has not ended. -/
def runLoop (m : OpcodeMap) : Nat → State → State
  | 0, s => s
  | k + 1, s =>
    match stepWith m s with
    | .next t => runLoop m k t
    | .fault _ => s
    | .refused _ => s

/-- Store the bytes from an address up, leaving out any that would lie above 255. -/
def State.placeBytes (s : State) : (a : Nat) → List Byte → State
  | _, [] => s
  | a, b :: bs => if a ≤ 255 then ({ s with mem := s.mem.write a b }).placeBytes (a + 1) bs else s

end Sys2Proof.Machine
end

