-- ==== Sys2Proof/Machine/Step.lean ====
section
/-! DEFINITION. One step under the default `OPCODE_MAP`, and the state whose next step fetches a given table word. -/

namespace Sys2Proof.Machine

/-- One step (40_execution_loop.md R101) under the default `OPCODE_MAP` (30_encoding.md R76). -/
def step (s : State) : Host.Outcome State Fault Refusal := stepWith defaultOpcodeMap s

/-- The state with a table word's bytes stored at pc, where the next step fetches (log entry 9). Nothing else changes. -/
def State.withFetchWord (s : State) (nbits w : Nat) : State := s.placeBytes s.pc.toNat (wordBytes nbits w)

end Sys2Proof.Machine
end

