-- ==== Sys2Proof/Machine/Reset.lean ====
section
/-! DEFINITION. The reset interaction for every image and every value of the open parameters (70_reset_and_hazards.md
R250-R253; 10_state.md R38). -/

namespace Sys2Proof.Machine

/-- Why a reset is refused before the block starts (60_exceptions.md R225). -/
inductive LoadError where
  /-- The image has more than 256 bytes (70_reset_and_hazards.md R251). -/
  | imageTooLong
deriving DecidableEq, Repr

/-- The byte a cell holds after the load: the image, then `MEM_INIT` (70_reset_and_hazards.md R251). -/
def loadedByte (image : List Byte) (memInit : Fin 256 → Byte) (a : Nat) : Byte :=
  match image[a]? with
  | some b => b
  | none => if h : a < 256 then memInit ⟨a, h⟩ else Memory.unlisted

/-- The register file at run start: `REG_INIT`, and SP at 244 (70_reset_and_hazards.md R252). -/
def regsAtRunStart (regInit : Fin 7 → Byte) : Vector Byte 8 :=
  Vector.ofFn fun r => if h : r.val < 7 then regInit ⟨r.val, h⟩ else spInit

/-- `reset(image, REG_INIT, FLAGS_INIT, MEM_INIT)` (10_state.md R38): construction, load, run start. It is the only way out of
Halted, and no part of an earlier state survives it. -/
def State.afterReset (image : List Byte) (p : Config.InitParams) : Except LoadError State :=
  if 256 < image.length then .error .imageTooLong
  else .ok
    { x := regsAtRunStart p.regInit
      pc := pcInit
      flags := { E := p.flagsInit.1, L := p.flagsInit.2.1, G := p.flagsInit.2.2 }
      mem := Memory.build (loadedByte image p.memInit) Config.memorySize 0
      runState := .running
      haltReason := .none
      diag := none
      out := [] }

end Sys2Proof.Machine
end

