-- ==== Sys2Proof/Machine/Status.lean ====
section
/-! DEFINITION. What the host reads of a run: the status interface, the spec's codes, the end of a run and its exit status
(10_state.md R32, R38; 40_execution_loop.md R115, R116; 60_exceptions.md R222). -/

namespace Sys2Proof.Machine

/-- The halt_reason codes (10_state.md R32). -/
def HaltReason.code : HaltReason → Nat
  | .none => 0
  | .haltInstruction => 1
  | .decodeError => 2
  | .addressFault => 3
  | .registerIndexFault => 4

/-- The address-fault kind codes (60_exceptions.md R222). -/
def AddressKind.code : AddressKind → Nat
  | .fetch => 0
  | .operand => 1
  | .spDecrement => 2
  | .spIncrement => 3
  | .returnAddress => 4

/-- The status interaction: run_state, halt_reason, diag (10_state.md R38). -/
def State.status (s : State) : RunState × HaltReason × Option Diag := (s.runState, s.haltReason, s.diag)

/-- A run has ended exactly when run_state is Halted (40_execution_loop.md R115). -/
def State.ended (s : State) : Bool := decide (s.runState = .halted)

/-- A run has ended cleanly exactly when halt_reason is HALT_INSTRUCTION (40_execution_loop.md R115). -/
def State.endedCleanly (s : State) : Bool := decide (s.haltReason = .haltInstruction)

/-- The two exit statuses (40_execution_loop.md R116). -/
inductive ExitStatus where
  | success
  | failure
deriving DecidableEq, Repr

/-- The exit status of a run that has ended (40_execution_loop.md R116); `none` while it has not. -/
def State.exitStatus (s : State) : Option ExitStatus :=
  if s.ended then (if s.endedCleanly then some .success else some .failure) else none

end Sys2Proof.Machine
end

