-- ==== Sys2Proof/Safety.lean ====
section
/-! DEFINITION. The terms the statements use: the code bytes at pc, the invariant of the machine, well-behaved runs of
handlers, and what two states agree on. -/

namespace Sys2Proof.Machine

/-! ### The code at pc -/

/-- The bytes of memory from address `a` up, at most `n` of them and none above address 255. -/
def State.bytesFrom (s : State) : (n a : Nat) → List Byte
  | 0, _ => []
  | n + 1, a => if a ≤ 255 then s.mem.read a :: s.bytesFrom n (a + 1) else []

/-- The bytes the next instruction can lie in: up to three, from pc (30_encoding.md R70). -/
def State.codeBytes (s : State) : List Byte := s.bytesFrom 3 s.pc.toNat

/-- The bytes of instruction `i` lie at pc (30_encoding.md R70), all of them at addresses 0-255. -/
abbrev CodeAt (m : OpcodeMap) (i : Instr) (s : State) : Prop :=
  s.bytesFrom (encodeWith m i).length s.pc.toNat = encodeWith m i

/-- The next step runs instruction `i`: the block is Running and the bytes of `i` lie at pc. -/
abbrev Runs (m : OpcodeMap) (i : Instr) (s : State) : Prop :=
  s.runState = .running ∧ CodeAt m i s

/-- The block is Running and the bytes at pc are the opcode of `o`, then the operand bytes, all at addresses 0-255:
the opcode at pc, a1 at pc+1, a2 at pc+2 (20_memory.md R54). -/
abbrev Fetches (m : OpcodeMap) (s : State) (o : Op) (operands : List Byte) : Prop :=
  s.runState = .running ∧ s.pc.toNat + operands.length ≤ 255 ∧ s.mem.read s.pc.toNat = m.byte o ∧
    ∀ k (h : k < operands.length), s.mem.read (s.pc.toNat + 1 + k) = operands[k]

/-- The byte `v` is what the next step fetches as its opcode: it lies at pc, a fetch that succeeds has it as its opcode and
gives an instruction of that opcode, and where `v` is the opcode of no instruction the step enters DecodeError with it
(20_memory.md R62; 40_execution_loop.md R102, R103). -/
abbrev NextOpcodeIs (m : OpcodeMap) (s : State) (v : Byte) : Prop :=
  s.pc.toNat ≤ 255 ∧ s.mem.read s.pc.toNat = v ∧
    (∀ f, s.fetch m = .ok f → f.opcode = v ∧ m.byte f.instr.op = v) ∧
    ((∀ o : Op, m.byte o ≠ v) → stepWith m s = .next (s.faultEntry .decodeError (some v)))

/-- The register named by a register operand byte (30_encoding.md R78); the byte is 0-7 where this is used. -/
def regOf (b : Byte) : RegIdx := ⟨b.toNat % 8, Nat.mod_lt _ (by decide)⟩

/-! ### The invariant -/

/-- diag and halt_reason tell the same fault, raised at pc (10_state.md R33; 60_exceptions.md R221, R222, R223, R226): the
detail is that of the reason, and the opcode is missing exactly for the opcode fetch. -/
def Diag.describes (d : Diag) (r : HaltReason) (pc : PcWord) : Bool :=
  decide (d.pc = pc) &&
    match r, d.detail with
    | .decodeError, .nothing => d.opcode.isSome
    | .addressFault, .address .fetch v => d.opcode.isNone && decide (v = pc.toNat) && decide (255 < pc.toNat)
    | .addressFault, .address .operand v =>
      d.opcode.isSome && decide (pc.toNat < v) && decide (255 < v) && decide (v ≤ 257)
    | .addressFault, .address .spDecrement v => d.opcode.isSome && decide (v = -1)
    | .addressFault, .address .spIncrement v => d.opcode.isSome && decide (v = 256)
    | .addressFault, .address .returnAddress v => d.opcode.isSome && decide (v = pc.toNat + 2) && decide (v = 256)
    | .registerIndexFault, .operandByte b => d.opcode.isSome && decide (8 ≤ b.toNat)
    | _, _ => false

/-- run_state, halt_reason and diag tell one story (10_state.md R32, R33): Running with NONE and no diagnostic; Halted by HALT
with no diagnostic; or Halted by a fault with the record of that fault. -/
def State.statusConsistent (s : State) : Bool :=
  match s.runState, s.haltReason, s.diag with
  | .running, .none, none => true
  | .halted, .haltInstruction, none => true
  | .halted, r, some d => d.describes r s.pc
  | _, _, _ => false

/-- The machine's invariant: memory is in its canonical form within addresses 0-255 (20_memory.md R50), pc is one of the
values 10_state.md R27 lets it reach, and the status is consistent. -/
abbrev State.Inv (s : State) : Prop :=
  s.mem.wf = true ∧ s.pc.toNat ≤ 258 ∧ s.statusConsistent = true

/-! ### Reading a state cell by cell -/

/-- Every cell of memory reads the same. -/
abbrev SameMemory (s t : State) : Prop := ∀ a : Nat, t.mem.read a = s.mem.read a

/-- Every cell of memory outside address `d` reads the same. -/
abbrev SameMemoryBut (d : Nat) (s t : State) : Prop := ∀ a : Nat, a ≠ d → t.mem.read a = s.mem.read a

/-- Every register outside those of the list reads the same. -/
abbrev SameRegistersBut (rs : List RegIdx) (s t : State) : Prop := ∀ r : RegIdx, r ∉ rs → t.reg r = s.reg r

/-- run_state, halt_reason and diag are the same. -/
abbrev SameStatus (s t : State) : Prop :=
  t.runState = s.runState ∧ t.haltReason = s.haltReason ∧ t.diag = s.diag

/-- Nothing but run_state, halt_reason and diag differs: all that fault entry may change (60_exceptions.md R226). -/
abbrev SameButStatus (s t : State) : Prop :=
  t.x = s.x ∧ t.pc = s.pc ∧ t.flags = s.flags ∧ t.mem = s.mem ∧ t.out = s.out

/-- What an instruction can act on is the same: registers, pc, flags, memory and run_state, but not halt_reason, diag
and out (10_state.md R34, R37). -/
abbrev SameVisible (s t : State) : Prop :=
  t.x = s.x ∧ t.pc = s.pc ∧ t.flags = s.flags ∧ t.mem = s.mem ∧ t.runState = s.runState

/-! ### Sequences of handlers -/

/-- Execute the handlers of a list of instructions one after the other, each from the state the one before it left; `none`
where one of them faults. -/
def execAll : List Instr → State → Option State
  | [], s => some s
  | i :: is, s =>
    match exec i s with
    | .next t => if t.faulted then none else execAll is t
    | .fault _ => none
    | .refused _ => none

end Sys2Proof.Machine
end

