-- ==== Sys2Proof/Certificates/Slice0/Obligations.lean ====
section
/-! DEFINITION. The statements for the provers, one `def Obligations.<Name> : Prop` each; OBLIGATIONS.json lists them. -/

open Sys2Proof Sys2Proof.Machine


/-- For every byte, under every OPCODE_MAP: the operand count is the number in bits 7-6 and the length is that plus 1 (by
the mask 0xC0, independent of the instruction), and sets_pc is bit 4. The decoder answers Valid exactly when the byte
is the opcode of an instruction: it then gives that instruction with the byte's count, length and sets_pc, and the
count is the instruction's operand count. Otherwise it answers Invalid. [stated: R71, R80] -/
def Obligations.DecoderReadsOpcodeByte : Prop :=
  ∀ (m : OpcodeMap) (op : Byte),
    opcodeCount op = op.toNat / 64 ∧ opcodeLength op = op.toNat / 64 + 1 ∧
    (opcodeSetsPc op = true ↔ op.toNat / 16 % 2 = 1) ∧
    (∀ o : Op, m.byte o = op →
      decodeOpcode m op =
        some { instr := o, count := opcodeCount op, length := opcodeLength op, setsPc := opcodeSetsPc op } ∧
      opcodeCount op = o.operandCount) ∧
    ((∀ o : Op, m.byte o ≠ op) → decodeOpcode m op = none)

/-- Under the default OPCODE_MAP the 13 instructions have the bytes of the spec's table, and a byte decodes exactly when
it is one of the 13. The bytes are the spec's default from general knowledge, not its source's: log entry 1
(PRESUMED). [derived: 30_encoding.md section 2 (the default OPCODE_MAP), 93_implementation_defined.md section 2 (K1)] -/
def Obligations.DefaultOpcodeMapIsTheTable : Prop :=
  defaultOpcodeMap.byte .halt = 0x01 ∧ defaultOpcodeMap.byte .loadImmediate = 0x82 ∧
  defaultOpcodeMap.byte .printRegister = 0x47 ∧ defaultOpcodeMap.byte .multiply = 0xA2 ∧
  defaultOpcodeMap.byte .add = 0xA0 ∧ defaultOpcodeMap.byte .push = 0x45 ∧ defaultOpcodeMap.byte .pop = 0x46 ∧
  defaultOpcodeMap.byte .call = 0x50 ∧ defaultOpcodeMap.byte .ret = 0x11 ∧ defaultOpcodeMap.byte .compare = 0xA7 ∧
  defaultOpcodeMap.byte .jump = 0x54 ∧ defaultOpcodeMap.byte .jumpIfEqual = 0x55 ∧
  defaultOpcodeMap.byte .jumpIfNotEqual = 0x56 ∧
  ∀ op : Byte, (decodeOpcode defaultOpcodeMap op).isSome = true ↔
    op ∈ ([0x01, 0x11, 0x45, 0x46, 0x47, 0x50, 0x54, 0x55, 0x56, 0x82, 0xA0, 0xA2, 0xA7] : List Byte)

/-- Under every OPCODE_MAP no instruction has an opcode byte with bits 7-6 = 11: every byte 0xC0-0xFF has no handler, and
a Running block whose byte at pc is one of them enters DecodeError with that byte in the diagnostic. [stated: R72] -/
def Obligations.BytesFromC0AreDecodeErrors : Prop :=
  ∀ (m : OpcodeMap) (op : Byte), 0xC0 ≤ op.toNat →
    decodeOpcode m op = none ∧
    ∀ s : State, s.runState = .running → s.pc.toNat ≤ 255 → s.mem.read s.pc.toNat = op →
      stepWith m s = .next (s.faultEntry .decodeError (some op))

/-- Whatever the OPCODE_MAP, the decoder refuses exactly 256 - 13 = 243 opcode bytes. [derived: 30_encoding.md section 5] -/
def Obligations.IllegalBytesAre243 : Prop :=
  ∀ m : OpcodeMap,
    ((List.range 256).filter (fun n => (decodeOpcode m (BitVec.ofNat 8 n)).isNone)).length = 243

/-- Under every OPCODE_MAP, for every instruction with every operand byte, and for any bytes that follow: decoding its
encoding and those bytes gives the instruction and exactly those bytes. [derived: 30_encoding.md section 1,
30_encoding.md section 3, 30_encoding.md section 4] -/
def Obligations.DecodeEncodeRoundTrip : Prop :=
  ∀ (m : OpcodeMap) (i : Instr) (rest : List Byte), decodeWith m (encodeWith m i ++ rest) = .ok (i, rest)

/-- Under every OPCODE_MAP, if bytes decode to an instruction and a rest, the bytes are the encoding of that instruction
followed by that rest: each instruction has one encoding, and none is read from any other bytes. [derived:
30_encoding.md section 1, 30_encoding.md section 3, 30_encoding.md section 4] -/
def Obligations.DecodedBytesAreTheEncoding : Prop :=
  ∀ (m : OpcodeMap) (bytes rest : List Byte) (i : Instr),
    decodeWith m bytes = .ok (i, rest) → bytes = encodeWith m i ++ rest

/-- One word of each family, written bit by bit from the default opcode table (log entry 1) and the operand order, decodes
to its instruction: LOAD_IMMEDIATE R0,8; MULTIPLY R0,R1; COMPARE R2,R3; PUSH R2; CALL R1; HALT; and 0xFF decodes to
none. [derived: 30_encoding.md section 2, 30_encoding.md section 3] -/
def Obligations.WrittenOutWordsDecode : Prop :=
  decode [0b10000010, 0b00000000, 0b00001000] = .ok (.loadImmediate 0 8, []) ∧
  decode [0b10100010, 0b00000000, 0b00000001] = .ok (.multiply 0 1, []) ∧
  decode [0b10100111, 0b00000010, 0b00000011] = .ok (.compare 2 3, []) ∧
  decode [0b01000101, 0b00000010] = .ok (.push 2, []) ∧
  decode [0b01010000, 0b00000001] = .ok (.call 1, []) ∧
  decode [0b00000001] = .ok (.halt, []) ∧
  decode [0b11111111] = .error (.unassigned 0xFF)

/-- While Running, under every OPCODE_MAP: if the bytes from pc (up to three, none above address 255) decode to
instruction i, the step is exec of i at that state followed by the PC-advance FSM with the opcode byte of i. step is
that step under the default map. [derived: 40_execution_loop.md section 2] -/
def Obligations.StepRunsTheDecodedInstruction : Prop :=
  (∀ (m : OpcodeMap) (s : State) (i : Instr) (rest : List Byte),
    s.runState = .running → decodeWith m s.codeBytes = .ok (i, rest) →
      stepWith m s =
        match exec i s with
        | .next t => .next (t.advancePc (m.byte i.op))
        | .fault r => .fault r
        | .refused r => .refused r) ∧
  ∀ s : State, step s = stepWith defaultOpcodeMap s

/-- While Running, under every OPCODE_MAP, when instruction i runs from pc and its handler answers u: if the handler did
not fault and bit 4 of the opcode byte is clear, the step ends with pc exactly op[7:6] + 1 higher than before the
step, at most 258, so the advance itself never wraps and never faults; if bit 4 is set, pc is left as the handler left
it. The amount is the same function of the opcode byte for every instruction. Nothing but pc is changed by the
advance, and after a fault it changes nothing. [stated: R107, R108] -/
def Obligations.PcAdvanceComesFromOpcodeBits : Prop :=
  ∀ (m : OpcodeMap) (s u : State) (i : Instr), Runs m i s → exec i s = .next u →
    ∃ t, stepWith m s = .next t ∧ t = { u with pc := t.pc } ∧
      (u.faulted = false → (m.byte i.op).toNat / 16 % 2 = 0 →
        t.pc.toNat = s.pc.toNat + ((m.byte i.op).toNat / 64 + 1) ∧ t.pc.toNat ≤ 258) ∧
      (u.faulted = false → (m.byte i.op).toNat / 16 % 2 = 1 → t.pc = u.pc) ∧
      (u.faulted = true → t = u)

/-- A handler whose opcode has sets_pc = 0 never writes pc. One whose opcode has sets_pc = 1 writes pc on every path that
does not fault: CALL and JUMP to the register's value (CALL's read after the push), RETURN to the byte at SP, and the
conditional jumps to the register's value when taken and to pc + 2 when not taken. [stated: R114] -/
def Obligations.HandlersKeepThePcContract : Prop :=
  (∀ (i : Instr) (s t : State), i.op.setsPc = false → exec i s = .next t → t.pc = s.pc) ∧
  ∀ (r : RegIdx) (s t : State), t.faulted = false →
    (exec (.call (regByte r)) s = .next t → t.pc = (t.reg r).zeroExtend 9) ∧
    (exec .ret s = .next t → t.pc = (s.load s.sp).zeroExtend 9) ∧
    (exec (.jump (regByte r)) s = .next t → t.pc = (s.reg r).zeroExtend 9) ∧
    (exec (.jumpIfEqual (regByte r)) s = .next t →
      t.pc = if s.flags.E then (s.reg r).zeroExtend 9 else s.pc + 2) ∧
    (exec (.jumpIfNotEqual (regByte r)) s = .next t →
      t.pc = if s.flags.E then s.pc + 2 else (s.reg r).zeroExtend 9)

/-- HALT: run_state becomes Halted and halt_reason HALT_INSTRUCTION; no register, flag, memory cell, output or diag
changes. Its step also advances pc by 1, from any address 0-255. It never faults. [derived: 44_control_flow.md section
1 (HALT)] -/
def Obligations.HaltStopsTheLoop : Prop :=
  ∀ (m : OpcodeMap) (s : State),
    exec .halt s = .next { s with runState := .halted, haltReason := .haltInstruction } ∧
    (Fetches m s .halt [] →
      stepWith m s = .next { s with runState := .halted, haltReason := .haltInstruction, pc := s.pc + 1 })

/-- LOAD_IMMEDIATE reg, value for reg 0-7 (7 included) and any value: x[reg] becomes the value, unchanged; nothing else
changes but pc, which its step moves by 3. The immediate is never checked. [derived: 42_data_move.md section 1
(LOAD_IMMEDIATE)] -/
def Obligations.LoadImmediateSetsRegister : Prop :=
  ∀ (m : OpcodeMap) (r : RegIdx) (v : Byte) (s : State),
    exec (.loadImmediate (regByte r) v) s = .next (s.setReg r v) ∧
    (Fetches m s .loadImmediate [regByte r, v] → stepWith m s = .next ((s.setReg r v).setPc (s.pc + 3)))

/-- PRINT_REGISTER reg for reg 0-7: the register's value is appended at the end of out; nothing else changes but pc, which
its step moves by 2. [derived: 42_data_move.md section 2 (PRINT_REGISTER)] -/
def Obligations.PrintRegisterEmitsValue : Prop :=
  ∀ (m : OpcodeMap) (r : RegIdx) (s : State),
    exec (.printRegister (regByte r)) s = .next { s with out := s.out ++ [s.reg r] } ∧
    (Fetches m s .printRegister [regByte r] →
      stepWith m s = .next { s with out := s.out ++ [s.reg r], pc := s.pc + 2 })

/-- ADD regA, regB for registers 0-7 (the same one twice, and 7, included): x[regA] becomes the sum of both registers'
values before the instruction, mod 256; nothing else changes (no flag, no SP range fault) but pc, which its step moves
by 3. [derived: 41_alu.md section 2 (ADD), 41_alu.md section 1 (the ALU)] -/
def Obligations.AddWritesSumMod256 : Prop :=
  ∀ (m : OpcodeMap) (a b : RegIdx) (s t : State),
    t = s.setReg a (BitVec.ofNat 8 (((s.reg a).toNat + (s.reg b).toNat) % 256)) →
      exec (.add (regByte a) (regByte b)) s = .next t ∧
      (Fetches m s .add [regByte a, regByte b] → stepWith m s = .next (t.setPc (s.pc + 3)))

/-- MULTIPLY regA, regB for registers 0-7 (the same one twice, and 7, included): x[regA] becomes the product of both
registers' values before the instruction, mod 256; nothing else changes (no flag, no SP range fault) but pc, which its
step moves by 3. [derived: 41_alu.md section 3 (MULTIPLY), 41_alu.md section 1 (the ALU)] -/
def Obligations.MultiplyWritesProductMod256 : Prop :=
  ∀ (m : OpcodeMap) (a b : RegIdx) (s t : State),
    t = s.setReg a (BitVec.ofNat 8 (((s.reg a).toNat * (s.reg b).toNat) % 256)) →
      exec (.multiply (regByte a) (regByte b)) s = .next t ∧
      (Fetches m s .multiply [regByte a, regByte b] → stepWith m s = .next (t.setPc (s.pc + 3)))

/-- COMPARE regA, regB for registers 0-7: E, L and G become whether x[regA] is equal to, less than and greater than
x[regB] as unsigned numbers; nothing else changes but pc, which its step moves by 3. [derived: 41_alu.md section 4
(COMPARE)] -/
def Obligations.CompareSetsFlagsUnsigned : Prop :=
  ∀ (m : OpcodeMap) (a b : RegIdx) (s t : State),
    t = { s with flags := { E := decide ((s.reg a).toNat = (s.reg b).toNat)
                            L := decide ((s.reg a).toNat < (s.reg b).toNat)
                            G := decide ((s.reg b).toNat < (s.reg a).toNat) } } →
      exec (.compare (regByte a) (regByte b)) s = .next t ∧
      (Fetches m s .compare [regByte a, regByte b] → stepWith m s = .next (t.setPc (s.pc + 3)))

/-- PUSH reg for reg 0-7. With SP > 0: SP becomes SP - 1 and the cell at the new SP becomes the register's value, the
decremented SP itself for reg 7; nothing else changes but pc, which its step moves by 2. With SP = 0: AddressFault
SP_DECREMENT with address -1. [derived: 43_stack.md section 2 (PUSH)] -/
def Obligations.PushStoresBelowStackTop : Prop :=
  ∀ (m : OpcodeMap) (r : RegIdx) (s t : State),
    t = (s.setSp (s.sp - 1)).store (s.sp - 1) (if r = 7 then s.sp - 1 else s.reg r) →
      (s.sp ≠ 0 → exec (.push (regByte r)) s = .next t ∧
        (Fetches m s .push [regByte r] → stepWith m s = .next (t.setPc (s.pc + 2)))) ∧
      (s.sp = 0 →
        exec (.push (regByte r)) s = .next (s.faultEntry (.addressFault .spDecrement (-1)) s.opcodeAtPc) ∧
        (Fetches m s .push [regByte r] →
          stepWith m s = .next (s.faultEntry (.addressFault .spDecrement (-1)) (some (m.byte .push)))))

/-- POP reg for reg 0-7. The register becomes the cell at SP; then SP, which for reg 7 is the popped value, is incremented
by 1; the cell keeps its value; nothing else changes but pc, which its step moves by 2. Where the SP to be incremented
is 255: AddressFault SP_INCREMENT with address 256. [derived: 43_stack.md section 3 (POP)] -/
def Obligations.PopLoadsStackTop : Prop :=
  ∀ (m : OpcodeMap) (r : RegIdx) (s t : State) (q : Byte),
    q = (if r = 7 then s.load s.sp else s.sp) → t = (s.setReg r (s.load s.sp)).setSp (q + 1) →
      (q ≠ 255 → exec (.pop (regByte r)) s = .next t ∧
        (Fetches m s .pop [regByte r] → stepWith m s = .next (t.setPc (s.pc + 2)))) ∧
      (q = 255 →
        exec (.pop (regByte r)) s = .next (s.faultEntry (.addressFault .spIncrement 256) s.opcodeAtPc) ∧
        (Fetches m s .pop [regByte r] →
          stepWith m s = .next (s.faultEntry (.addressFault .spIncrement 256) (some (m.byte .pop)))))

/-- CALL reg for reg 0-7, at address pc. With SP > 0 and pc + 2 at most 255: SP becomes SP - 1, the cell at the new SP
becomes pc + 2, and pc becomes the register's value after the push (the decremented SP for reg 7); nothing else
changes. With SP = 0: AddressFault SP_DECREMENT with address -1. With SP > 0 and pc + 2 above 255: AddressFault
RETURN_ADDRESS with address pc + 2. [derived: 44_control_flow.md section 2 (CALL)] -/
def Obligations.CallPushesReturnAddress : Prop :=
  ∀ (m : OpcodeMap) (r : RegIdx) (s t : State),
    t = ((s.setSp (s.sp - 1)).store (s.sp - 1) (BitVec.ofNat 8 (s.pc.toNat + 2))).setPc
          ((if r = 7 then s.sp - 1 else s.reg r).zeroExtend 9) →
      (s.sp ≠ 0 → s.pc.toNat + 2 ≤ 255 → exec (.call (regByte r)) s = .next t ∧
        (Fetches m s .call [regByte r] → stepWith m s = .next t)) ∧
      (s.sp = 0 →
        exec (.call (regByte r)) s = .next (s.faultEntry (.addressFault .spDecrement (-1)) s.opcodeAtPc) ∧
        (Fetches m s .call [regByte r] →
          stepWith m s = .next (s.faultEntry (.addressFault .spDecrement (-1)) (some (m.byte .call))))) ∧
      (s.sp ≠ 0 → 255 < s.pc.toNat + 2 →
        exec (.call (regByte r)) s =
          .next (s.faultEntry (.addressFault .returnAddress (s.pc.toNat + 2 : Nat)) s.opcodeAtPc) ∧
        (Fetches m s .call [regByte r] →
          stepWith m s = .next (s.faultEntry (.addressFault .returnAddress (s.pc.toNat + 2 : Nat)) (some (m.byte .call)))))

/-- RETURN. With SP below 255: pc becomes the cell at SP, and SP becomes SP + 1; nothing else changes. With SP = 255:
AddressFault SP_INCREMENT with address 256. [derived: 44_control_flow.md section 3 (RETURN)] -/
def Obligations.ReturnPopsPc : Prop :=
  ∀ (m : OpcodeMap) (s t : State), t = (s.setSp (s.sp + 1)).setPc ((s.load s.sp).zeroExtend 9) →
    (s.sp ≠ 255 → exec .ret s = .next t ∧ (Fetches m s .ret [] → stepWith m s = .next t)) ∧
    (s.sp = 255 →
      exec .ret s = .next (s.faultEntry (.addressFault .spIncrement 256) s.opcodeAtPc) ∧
      (Fetches m s .ret [] →
        stepWith m s = .next (s.faultEntry (.addressFault .spIncrement 256) (some (m.byte .ret)))))

/-- JUMP reg for reg 0-7: pc becomes the register's value; nothing else changes. [derived: 44_control_flow.md section 4
(JUMP)] -/
def Obligations.JumpSetsPcToRegister : Prop :=
  ∀ (m : OpcodeMap) (r : RegIdx) (s t : State), t = s.setPc ((s.reg r).zeroExtend 9) →
    exec (.jump (regByte r)) s = .next t ∧ (Fetches m s .jump [regByte r] → stepWith m s = .next t)

/-- JUMP_IF_EQUAL reg for reg 0-7: pc becomes the register's value when E is true and pc + 2 when E is false; nothing else
changes. At addresses 254 and 255 the not-taken pc is 256 and 257 and is no fault of this step. [derived:
44_control_flow.md section 5 (JUMP_IF_EQUAL)] -/
def Obligations.JumpIfEqualBranchesOnE : Prop :=
  ∀ (m : OpcodeMap) (r : RegIdx) (s t : State),
    t = s.setPc (if s.flags.E = true then (s.reg r).zeroExtend 9 else s.pc + 2) →
      exec (.jumpIfEqual (regByte r)) s = .next t ∧ (Fetches m s .jumpIfEqual [regByte r] → stepWith m s = .next t)

/-- JUMP_IF_NOT_EQUAL reg for reg 0-7: pc becomes the register's value when E is false and pc + 2 when E is true; nothing
else changes. [derived: 44_control_flow.md section 6 (JUMP_IF_NOT_EQUAL)] -/
def Obligations.JumpIfNotEqualBranchesOnE : Prop :=
  ∀ (m : OpcodeMap) (r : RegIdx) (s t : State),
    t = s.setPc (if s.flags.E = false then (s.reg r).zeroExtend 9 else s.pc + 2) →
      exec (.jumpIfNotEqual (regByte r)) s = .next t ∧
      (Fetches m s .jumpIfNotEqual [regByte r] → stepWith m s = .next t)

/-- For every instruction, if some register-index operand byte is above 7, the instruction raises RegisterIndexFault for
the first such operand, a1 before a2, and records pc, the opcode and that byte; no handler effect happens. If every
register-index operand is 0-7 it does not raise that fault from a Running state; LOAD_IMMEDIATE's immediate is no
register index and is not checked. [stated: R105, R223] -/
def Obligations.RegisterIndexAbove7Faults : Prop :=
  (∀ (m : OpcodeMap) (i : Instr) (b : Byte) (s : State),
    i.registerOperands.find? (fun a => decide (7 < a.toNat)) = some b →
      exec i s = .next (s.faultEntry (.registerIndexFault b) s.opcodeAtPc) ∧
      (Runs m i s →
        ∃ t, stepWith m s = .next t ∧ SameButStatus s t ∧ t.haltReason = .registerIndexFault ∧
          t.diag = some { pc := s.pc, opcode := some (m.byte i.op), detail := .operandByte b })) ∧
  (∀ (i : Instr) (s t : State), (∀ a ∈ i.registerOperands, a.toNat ≤ 7) → s.runState = .running →
    exec i s = .next t → s.haltReason ≠ .registerIndexFault → t.haltReason ≠ .registerIndexFault) ∧
  ∀ (r : RegIdx) (v : Byte) (s : State), exec (.loadImmediate (regByte r) v) s = .next (s.setReg r v)

/-- While Running, if the byte at pc (0-255) is the opcode of no instruction, the step enters DecodeError: halt_reason
DECODE_ERROR, diag with this pc and this byte and no detail, nothing else changed; this holds at the last cells of
memory too. A step from a Running state with pc at most 255 ends with halt_reason DECODE_ERROR only so (where it did
not hold it before). [stated: R103, R221] -/
def Obligations.UnassignedOpcodeIsDecodeError : Prop :=
  ∀ (m : OpcodeMap) (s : State), s.runState = .running → s.pc.toNat ≤ 255 →
    ((∀ o : Op, m.byte o ≠ s.mem.read s.pc.toNat) →
      stepWith m s = .next { s with
        runState := .halted, haltReason := .decodeError
        diag := some { pc := s.pc, opcode := some (s.mem.read s.pc.toNat), detail := .nothing } }) ∧
    (∀ t, stepWith m s = .next t → s.haltReason ≠ .decodeError → t.haltReason = .decodeError →
      ∀ o : Op, m.byte o ≠ s.mem.read s.pc.toNat)

/-- While Running: pc above 255 gives AddressFault FETCH with no opcode, whatever else holds; else an unassigned byte
gives DecodeError, whatever the operand addresses; else the first operand address above 255 gives AddressFault
OPERAND, whatever the operands; else the first register operand above 7 gives RegisterIndexFault, whatever the stack;
else the handler's own: CALL SP_DECREMENT at SP = 0 before RETURN_ADDRESS, PUSH SP_DECREMENT at SP = 0, POP and RETURN
SP_INCREMENT where the SP to be incremented is 255. [stated: R228] -/
def Obligations.FaultsHaveOnePriorityOrder : Prop :=
  ∀ (m : OpcodeMap) (s : State), s.runState = .running →
    (255 < s.pc.toNat → stepWith m s = .next (s.faultEntry (.addressFault .fetch s.pc.toNat) none)) ∧
    (s.pc.toNat ≤ 255 → (∀ o : Op, m.byte o ≠ s.mem.read s.pc.toNat) →
      stepWith m s = .next (s.faultEntry .decodeError (some (s.mem.read s.pc.toNat)))) ∧
    (∀ (o : Op) (k : Nat), s.pc.toNat ≤ 255 → s.mem.read s.pc.toNat = m.byte o → 1 ≤ k → k ≤ o.operandCount →
      255 < s.pc.toNat + k → (∀ j, 1 ≤ j → j < k → s.pc.toNat + j ≤ 255) →
        stepWith m s = .next (s.faultEntry (.addressFault .operand (s.pc.toNat + k : Nat)) (some (m.byte o)))) ∧
    (∀ (i : Instr) (b : Byte), CodeAt m i s → i.registerOperands.find? (fun a => decide (7 < a.toNat)) = some b →
      stepWith m s = .next (s.faultEntry (.registerIndexFault b) (some (m.byte i.op)))) ∧
    ∀ r : RegIdx,
      (CodeAt m (.call (regByte r)) s → s.sp = 0 →
        stepWith m s = .next (s.faultEntry (.addressFault .spDecrement (-1)) (some (m.byte .call)))) ∧
      (CodeAt m (.call (regByte r)) s → s.sp ≠ 0 → 255 < s.pc.toNat + 2 →
        stepWith m s = .next (s.faultEntry (.addressFault .returnAddress (s.pc.toNat + 2 : Nat)) (some (m.byte .call)))) ∧
      (CodeAt m (.push (regByte r)) s → s.sp = 0 →
        stepWith m s = .next (s.faultEntry (.addressFault .spDecrement (-1)) (some (m.byte .push)))) ∧
      (CodeAt m (.pop (regByte r)) s → (if r = 7 then s.load s.sp else s.sp) = 255 →
        stepWith m s = .next (s.faultEntry (.addressFault .spIncrement 256) (some (m.byte .pop)))) ∧
      (CodeAt m .ret s → s.sp = 255 →
        stepWith m s = .next (s.faultEntry (.addressFault .spIncrement 256) (some (m.byte .ret))))

/-- If a step from a Running state ends in a fault, then it has a cause c such that: run_state is Halted, halt_reason is
the code of c, diag records the pc before the step, the opcode byte at that pc and the information of c; the opcode is
the byte of memory at pc where pc is at most 255, and it is none exactly when c is the FETCH address fault; pc, every
register, flag, memory cell and output value are as before the step; and no step follows. [stated: R226, R227] -/
def Obligations.FaultsArePrecise : Prop :=
  ∀ (m : OpcodeMap) (s t : State), stepWith m s = .next t → t.faulted = true →
    ∃ c : Cause,
      t.runState = .halted ∧ t.haltReason = c.haltReason ∧
      t.diag = some { pc := s.pc, opcode := s.opcodeAtPc, detail := c.detail } ∧
      (s.pc.toNat ≤ 255 → s.opcodeAtPc = some (s.mem.read s.pc.toNat)) ∧
      (s.opcodeAtPc = none ↔ ∃ v, c = .addressFault .fetch v) ∧
      SameButStatus s t ∧ ∀ u, stepWith m t ≠ .next u

/-- Under every OPCODE_MAP, from a Running state a step always answers a next state, and from a Halted state it never
does; the loop with any amount of fuel leaves a Halted state as it is. Every reset that is not refused ends Running.
[stated: R100] -/
def Obligations.StepsOnlyWhileRunning : Prop :=
  (∀ (m : OpcodeMap) (s : State),
    (s.runState = .running → ∃ t, stepWith m s = .next t) ∧
    (s.runState = .halted → (∀ t, stepWith m s ≠ .next t) ∧ ∀ n, runLoop m n s = s)) ∧
  ∀ (image : List Byte) (p : Config.InitParams) (s : State), State.afterReset image p = .ok s → s.runState = .running

/-- A step from a Running state ends Halted in exactly two ways: the byte at pc is HALT's opcode, and then halt_reason is
HALT_INSTRUCTION; or it is fault entry, and then halt_reason is DECODE_ERROR, ADDRESS_FAULT or REGISTER_INDEX_FAULT.
HALT's opcode at pc always halts. [stated: R111] -/
def Obligations.HaltedInExactlyTwoWays : Prop :=
  ∀ (m : OpcodeMap) (s t : State), stepWith m s = .next t →
    (t.runState = .halted ↔
      (s.pc.toNat ≤ 255 ∧ s.mem.read s.pc.toNat = m.byte .halt ∧ t.haltReason = .haltInstruction) ∨
      (∃ c op, t = s.faultEntry c op ∧
        (t.haltReason = .decodeError ∨ t.haltReason = .addressFault ∨ t.haltReason = .registerIndexFault))) ∧
    (s.pc.toNat ≤ 255 → s.mem.read s.pc.toNat = m.byte .halt →
      t.runState = .halted ∧ t.haltReason = .haltInstruction)

/-- A Running block with HALT's opcode at pc, run with any fuel above 0, ends Halted with halt_reason HALT_INSTRUCTION and
pc one higher, which is 256 for a HALT at 255 and is no fault; nothing else is changed, and no further step is taken.
In general the loop takes another step exactly while run_state, as the previous step left it, is Running. [stated:
R109, R110] -/
def Obligations.LoopEndsAfterHaltStep : Prop :=
  (∀ (m : OpcodeMap) (s : State) (n : Nat), Fetches m s .halt [] →
    runLoop m (n + 1) s = { s with runState := .halted, haltReason := .haltInstruction, pc := s.pc + 1 } ∧
    (runLoop m (n + 1) s).pc.toNat = s.pc.toNat + 1) ∧
  ∀ (m : OpcodeMap) (s t : State) (n k : Nat),
    runLoop m (n + k) s = runLoop m k (runLoop m n s) ∧
    (runLoop m n s = t → t.runState = .running → ∃ u, stepWith m t = .next u ∧ runLoop m (n + 1) s = u) ∧
    (runLoop m n s = t → t.runState = .halted → runLoop m (n + 1) s = t)

/-- After any step from a Running state: the exit status is none while Running, success when HALT's opcode was at pc, and
failure when the step ended in a fault; and a Halted result is one of the two. [derived: 40_execution_loop.md section
6] -/
def Obligations.ExitStatusTellsCleanEnd : Prop :=
  ∀ (m : OpcodeMap) (s t : State), stepWith m s = .next t →
    (t.runState = .running → t.exitStatus = none) ∧
    (s.pc.toNat ≤ 255 → s.mem.read s.pc.toNat = m.byte .halt → t.exitStatus = some .success) ∧
    (t.faulted = true → t.exitStatus = some .failure) ∧
    (t.runState = .halted → t.exitStatus = some (if t.faulted then .failure else .success))

/-- For every instruction with every operand byte, in every state, exec answers a next state: its effect, or the entry of
the fault it raises. [derived: 60_exceptions.md section 1, 60_exceptions.md section 2, 44_control_flow.md section 7] -/
def Obligations.EveryInstructionAnswersNext : Prop :=
  ∀ (i : Instr) (s : State), ∃ t, exec i s = .next t ∧
    (t.x = s.x ∧ t.pc = s.pc ∧ t.flags = s.flags ∧ t.mem = s.mem ∧ t.out = s.out ∧ t.runState = .halted ∨
      t.runState = s.runState ∧ t.haltReason = s.haltReason ∧ t.diag = s.diag)

/-- If a step changes any of E, L, G, the byte at pc was COMPARE's opcode; and a step of COMPARE that does not fault ends
with exactly one of E, L, G true. [derived: 10_state.md section 4] -/
def Obligations.OnlyCompareWritesFlags : Prop :=
  ∀ (m : OpcodeMap) (s t : State), stepWith m s = .next t →
    (t.flags ≠ s.flags → s.pc.toNat ≤ 255 ∧ s.mem.read s.pc.toNat = m.byte .compare) ∧
    (s.pc.toNat ≤ 255 → s.mem.read s.pc.toNat = m.byte .compare → t.faulted = false →
      t.flags = { E := true, L := false, G := false } ∨ t.flags = { E := false, L := true, G := false } ∨
      t.flags = { E := false, L := false, G := true })

/-- If two states differ only in L and G, their steps end in states that differ at most in L and G. [derived: 10_state.md
section 4, 41_alu.md section 4] -/
def Obligations.LessAndGreaterAreNeverRead : Prop :=
  ∀ (m : OpcodeMap) (s t : State) (l g : Bool), stepWith m s = .next t →
    ∃ l' g', stepWith m { s with flags := { s.flags with L := l, G := g } } =
      .next { t with flags := { t.flags with L := l', G := g' } }

/-- If two Running states differ only in halt_reason, diag and out, their steps agree on every register, pc, flag, memory
cell and run_state, and emit the same values. [derived: 10_state.md section 6, 10_state.md section 7] -/
def Obligations.StatusAndOutputAreNeverRead : Prop :=
  ∀ (m : OpcodeMap) (s t : State) (r : HaltReason) (d : Option Diag) (o : List Byte), stepWith m s = .next t →
    ∃ u emitted, stepWith m { s with haltReason := r, diag := d, out := o } = .next u ∧ SameVisible t u ∧
      t.out = s.out ++ emitted ∧ u.out = o ++ emitted

/-- A step leaves out as it is, or, when PRINT_REGISTER's opcode is at pc and the step does not fault, appends exactly the
value of the register its operand names. Over the loop with any fuel, from any state, what was in out stays at its
start. [derived: 10_state.md section 7, 42_data_move.md section 2] -/
def Obligations.OutputOnlyGrows : Prop :=
  (∀ (m : OpcodeMap) (s t : State), stepWith m s = .next t →
    t.out = s.out ∨
    (s.mem.read s.pc.toNat = m.byte .printRegister ∧ t.faulted = false ∧
      ∃ r : RegIdx, s.mem.read (s.pc.toNat + 1) = regByte r ∧ t.out = s.out ++ [s.reg r])) ∧
  ∀ (m : OpcodeMap) (n : Nat) (s : State), ∃ emitted, (runLoop m n s).out = s.out ++ emitted

/-- LOAD_IMMEDIATE, ADD and MULTIPLY, whatever their operand bytes, leave unchanged every register except the one a1
names, every flag, every memory cell, pc and the output; with register operands 0-7 also run_state, halt_reason and
diag. [derived: 42_data_move.md section 1, 41_alu.md section 2, 41_alu.md section 3, 10_state.md section 2] -/
def Obligations.RegisterWritersFrame : Prop :=
  ∀ (i : Instr) (a b : Byte) (s t : State),
    (i = .loadImmediate a b ∨ i = .add a b ∨ i = .multiply a b) → exec i s = .next t →
      SameRegistersBut [regOf a] s t ∧ t.flags = s.flags ∧ SameMemory s t ∧ t.pc = s.pc ∧ t.out = s.out ∧
      (i.wellFormed = true → SameStatus s t)

/-- COMPARE, PRINT_REGISTER, HALT and the three jumps, whatever their operand bytes, leave every register and every memory
cell unchanged; every flag except COMPARE's three; the output except PRINT_REGISTER's; pc except the jumps'; and, with
register operands 0-7, run_state and halt_reason except HALT's, and diag. [derived: 41_alu.md section 4,
42_data_move.md section 2, 44_control_flow.md, 10_state.md section 2] -/
def Obligations.NonWritersFrame : Prop :=
  ∀ (i : Instr) (s t : State),
    i.op ∈ [Op.compare, .printRegister, .halt, .jump, .jumpIfEqual, .jumpIfNotEqual] → exec i s = .next t →
      SameRegistersBut [] s t ∧ SameMemory s t ∧
      (i.op ≠ .compare → t.flags = s.flags) ∧ (i.op ≠ .printRegister → t.out = s.out) ∧
      (i.op.setsPc = false → t.pc = s.pc) ∧
      (i.wellFormed = true → i.op ≠ .halt → t.runState = s.runState ∧ t.haltReason = s.haltReason) ∧
      (i.wellFormed = true → t.diag = s.diag)

/-- PUSH and CALL, whatever their operand byte, leave unchanged every register except SP (x[7]), every flag and the
output; PUSH also pc. The address stored to is SP after the decrement: every memory cell outside it is unchanged.
Where they fault, every memory cell, SP and pc are unchanged. [derived: 43_stack.md section 1, 43_stack.md section 2,
44_control_flow.md section 2, 10_state.md section 2] -/
def Obligations.StoringInstructionsFrame : Prop :=
  ∀ (i : Instr) (a : Byte) (s t : State), (i = .push a ∨ i = .call a) → exec i s = .next t →
    SameRegistersBut [Config.stackPointer] s t ∧ t.flags = s.flags ∧ t.out = s.out ∧
    (i = .push a → t.pc = s.pc) ∧
    (∀ u, s.decSp = .ok u → SameMemoryBut u.sp.toNat s t) ∧
    (∀ c, s.decSp = .error c → SameMemory s t) ∧
    (s.faulted = false → t.faulted = true → SameButStatus s t) ∧
    (s.faulted = false → t.faulted = false → SameStatus s t)

/-- POP, whatever its operand byte, leaves unchanged every register except the one it names and SP, and pc; RETURN every
register except SP. Both leave every flag, the output and every memory cell unchanged. Where they fault, registers and
pc are unchanged too. [derived: 43_stack.md section 1, 43_stack.md section 3, 44_control_flow.md section 3,
10_state.md section 2] -/
def Obligations.PoppingInstructionsFrame : Prop :=
  ∀ (i : Instr) (a : Byte) (s t : State), (i = .pop a ∨ i = .ret) → exec i s = .next t →
    (i = .pop a → SameRegistersBut [regOf a, Config.stackPointer] s t ∧ t.pc = s.pc) ∧
    (i = .ret → SameRegistersBut [Config.stackPointer] s t) ∧
    t.flags = s.flags ∧ t.out = s.out ∧ SameMemory s t ∧
    (s.faulted = false → t.faulted = true → SameButStatus s t) ∧
    (s.faulted = false → t.faulted = false → SameStatus s t)

/-- In a state whose memory is in canonical form, with SP above 0, for every register 0-7: PUSH completes, POP of the same
register completes after it, and then every register, SP among them, holds what it held before; the cell below the old
top keeps the pushed value (for register 7 the decremented SP); every other cell, the flags, the output and pc are
unchanged. [derived: 43_stack.md section 4] -/
def Obligations.PushThenPopRestores : Prop :=
  ∀ (r : RegIdx) (s : State), s.mem.wf = true → s.sp ≠ 0 →
    ∃ t u, exec (.push (regByte r)) s = .next t ∧ exec (.pop (regByte r)) t = .next u ∧
      u.x = s.x ∧ u.load (s.sp - 1) = (if r = 7 then s.sp - 1 else s.reg r) ∧
      SameMemoryBut (s.sp - 1).toNat s u ∧ u.flags = s.flags ∧ u.out = s.out ∧ u.pc = s.pc ∧ SameStatus s u

/-- In a state whose memory is in canonical form, Running a CALL reg at an address at most 253 with SP above 0: the step
completes, and if the byte at the new pc is then RETURN's opcode (log entry 11: after the push), the second step
completes with pc just after the CALL, every register as before the CALL, SP among them, and the return address in the
cell below the old top. [derived: 44_control_flow.md section 7] -/
def Obligations.CallThenReturnComesBack : Prop :=
  ∀ (m : OpcodeMap) (r : RegIdx) (s : State), s.mem.wf = true → Fetches m s .call [regByte r] →
    s.pc.toNat ≤ 253 → s.sp ≠ 0 →
      ∃ t, stepWith m s = .next t ∧
        (t.mem.read t.pc.toNat = m.byte .ret →
          ∃ u, stepWith m t = .next u ∧ u.pc = s.pc + 2 ∧ u.x = s.x ∧
            u.load (s.sp - 1) = BitVec.ofNat 8 (s.pc.toNat + 2) ∧ SameMemoryBut (s.sp - 1).toNat s u ∧
            u.flags = s.flags ∧ u.out = s.out ∧ SameStatus s u)

/-- From a Running state: a list of PUSHes of any registers completes exactly when it is no longer than SP, and then SP is
lower by its length; a list of POPs into registers other than 7 completes exactly when it is no longer than 255 - SP,
and then SP is higher by its length. From SP = 244 that is 244 pushes and 11 pops. [derived: 70_reset_and_hazards.md
section 3] -/
def Obligations.StackDepthIsBoundedBySp : Prop :=
  ∀ (rs : List RegIdx) (s : State), s.runState = .running →
    (rs.length ≤ s.sp.toNat →
      ∃ t, execAll (rs.map fun r => .push (regByte r)) s = some t ∧ t.sp.toNat = s.sp.toNat - rs.length) ∧
    (s.sp.toNat < rs.length → execAll (rs.map fun r => .push (regByte r)) s = none) ∧
    ((∀ r ∈ rs, r ≠ 7) → rs.length ≤ 255 - s.sp.toNat →
      ∃ t, execAll (rs.map fun r => .pop (regByte r)) s = some t ∧ t.sp.toNat = s.sp.toNat + rs.length) ∧
    ((∀ r ∈ rs, r ≠ 7) → 255 - s.sp.toNat < rs.length →
      execAll (rs.map fun r => .pop (regByte r)) s = none)

/-- In a state whose memory is in canonical form, Running a PUSH of any register (the byte pushed is the register's value,
the decremented SP for register 7): if the decremented SP is the address just after the PUSH, the step completes with
pc there and the next step fetches the pushed byte as its opcode: an unassigned byte is its DecodeError, HALT's byte
ends the loop. Running a CALL whose new pc is the decremented SP, the next step fetches the return address as its
opcode. If the decremented SP is the address of the instruction's own opcode or operand byte, PUSH still pushes the
register that operand named and moves pc by 2, and CALL still jumps through it. [derived: 20_memory.md section 4] -/
def Obligations.PushedByteIsTheNextOpcode : Prop :=
  (∀ (m : OpcodeMap) (r : RegIdx) (s : State) (v : Byte), s.mem.wf = true → s.sp ≠ 0 →
    Fetches m s .push [regByte r] → v = (if r = 7 then s.sp - 1 else s.reg r) →
      ((s.sp - 1).toNat = s.pc.toNat + 2 →
        ∃ t, stepWith m s = .next t ∧ t.pc = s.pc + 2 ∧ NextOpcodeIs m t v ∧
          (v = m.byte .halt → ∀ n, (runLoop m (n + 2) s).haltReason = .haltInstruction ∧
            (runLoop m (n + 2) s).runState = .halted ∧ (runLoop m (n + 2) s).pc = s.pc + 3)) ∧
      ((s.sp - 1).toNat = s.pc.toNat ∨ (s.sp - 1).toNat = s.pc.toNat + 1 →
        ∃ t, stepWith m s = .next t ∧ t.load (s.sp - 1) = v ∧ t.pc = s.pc + 2)) ∧
  ∀ (m : OpcodeMap) (r : RegIdx) (s : State) (target : Byte), s.mem.wf = true → s.sp ≠ 0 →
    Fetches m s .call [regByte r] → s.pc.toNat + 2 ≤ 255 → target = (if r = 7 then s.sp - 1 else s.reg r) →
      (target = s.sp - 1 →
        ∃ t, stepWith m s = .next t ∧ t.pc.toNat = (s.sp - 1).toNat ∧
          NextOpcodeIs m t (BitVec.ofNat 8 (s.pc.toNat + 2))) ∧
      ((s.sp - 1).toNat = s.pc.toNat ∨ (s.sp - 1).toNat = s.pc.toNat + 1 →
        ∃ t, stepWith m s = .next t ∧ t.load (s.sp - 1) = BitVec.ofNat 8 (s.pc.toNat + 2) ∧
          t.pc = target.zeroExtend 9)

/-- State.reset has memory in canonical form, pc at most 258, and a consistent status. [derived: 70_reset_and_hazards.md
section 1, 10_state.md section 5] -/
def Obligations.ResetMeetsTheInvariant : Prop :=
  State.reset.Inv

/-- For every image and every REG_INIT, FLAGS_INIT and MEM_INIT, if the reset is not refused, the state it gives meets the
invariant. [derived: 70_reset_and_hazards.md section 1, 10_state.md section 5] -/
def Obligations.EveryResetMeetsTheInvariant : Prop :=
  ∀ (image : List Byte) (p : Config.InitParams) (s : State), State.afterReset image p = .ok s → s.Inv

/-- Under every OPCODE_MAP, and for step itself: if the invariant holds and the step answers a next state, the invariant
holds there. It says that memory stays in its canonical form within addresses 0-255; pc stays at most 258; Running
goes with halt_reason NONE and an empty diag, a HALT with HALT_INSTRUCTION and an empty diag, and a fault with the
diag of that fault at pc: the kind with its address value, an opcode except on FETCH, an operand byte above 7.
[derived: 10_state.md section 3, 10_state.md section 5, 20_memory.md section 1, 60_exceptions.md section 1] -/
def Obligations.StepKeepsTheInvariant : Prop :=
  (∀ (m : OpcodeMap) (s t : State), s.Inv → stepWith m s = .next t → t.Inv) ∧
  ∀ s t : State, s.Inv → step s = .next t → t.Inv

/-- For an image of n bytes: if n is at most 256 (0 included), the reset gives a state in which cell i reads the image's
byte i for i below n and MEM_INIT(i) for i from n to 255; if n is above 256 the reset is refused as a load error and
there is no state. [stated: R251] -/
def Obligations.LoadPlacesTheImage : Prop :=
  ∀ (image : List Byte) (p : Config.InitParams),
    (image.length ≤ 256 → ∃ s, State.afterReset image p = .ok s ∧
      (∀ i (h : i < image.length), s.mem.read i = image[i]) ∧
      ∀ i : Fin 256, image.length ≤ i.val → s.mem.read i.val = p.memInit i) ∧
    (256 < image.length → State.afterReset image p = .error .imageTooLong)

/-- After a reset with any image of at most 256 bytes and any parameters: SP is 244, pc is 0, R0-R6 are REG_INIT, E, L and
G are FLAGS_INIT, the output is empty, halt_reason is NONE, diag is empty and the block is Running. State.reset is the
reset with the empty image and the parameters of log entries 2, 3 and 4 (the model's choice: all zero and false).
[derived: 70_reset_and_hazards.md section 1, 10_state.md section 2] -/
def Obligations.RunStartSetsTheLoopState : Prop :=
  (∀ (image : List Byte) (p : Config.InitParams) (s : State), State.afterReset image p = .ok s →
    s.sp = 244 ∧ s.pc = 0 ∧ (∀ (r : RegIdx) (h : r.val < 7), s.reg r = p.regInit ⟨r.val, h⟩) ∧
    (s.flags.E, s.flags.L, s.flags.G) = p.flagsInit ∧ s.out = [] ∧ s.haltReason = .none ∧ s.diag = none ∧
    s.runState = .running) ∧
  State.afterReset [] defaultInitParams = .ok State.reset

/-- Memory's canonical form has one representation of each content: two memories in that form that read the same byte at
every address 0-255 are equal. The form is the model's own way to hold the 256 cells. [derived: 20_memory.md section
1] -/
def Obligations.CanonicalMemoriesAreEqualWhenReadEqual : Prop :=
  ∀ m n : Memory, m.wf = true → n.wf = true → (∀ a, a ≤ 255 → m.read a = n.read a) → m = n
end

