-- ==== Sys2Proof/Laws/Decode.lean ====
section
/-! SUPPORT. What decoding one opcode byte can answer. -/

namespace Sys2Proof

theorem Op.mem_all (o : Op) : o ∈ Op.all := by cases o <;> decide

/-- The decoder finds the instruction of every assigned byte (30_encoding.md R80). -/
theorem decodeOpcode_byte (m : OpcodeMap) (o : Op) :
    decodeOpcode m (m.byte o) =
      some { instr := o, count := o.operandCount, length := o.operandCount + 1, setsPc := o.setsPc } := by
  have hfind : Op.all.find? (fun p => decide (m.byte p = m.byte o)) = some o := by
    cases hf : Op.all.find? (fun p => decide (m.byte p = m.byte o)) with
    | none => exact absurd (List.find?_eq_none.mp hf o o.mem_all) (by simp)
    | some p =>
      have hp : m.byte p = m.byte o := by simpa using List.find?_some hf
      rw [m.injective p o hp]
  simp [decodeOpcode, hfind, opcodeLength, m.count_eq, m.setsPc_eq]

/-- A byte the decoder accepts is assigned, and what it answers is that instruction's. -/
theorem decodeOpcode_some {m : OpcodeMap} {op : Byte} {d : Decoded} (h : decodeOpcode m op = some d) :
    op = m.byte d.instr ∧ d.count = d.instr.operandCount ∧ d.length = d.instr.operandCount + 1 ∧
      d.setsPc = d.instr.setsPc := by
  unfold decodeOpcode at h
  split at h
  · next o hf =>
    have ho : m.byte o = op := by simpa using List.find?_some hf
    cases h
    subst ho
    simp [opcodeLength, m.count_eq, m.setsPc_eq]
  · cases h

/-- A byte the decoder refuses is no instruction's. -/
theorem decodeOpcode_none {m : OpcodeMap} {op : Byte} : decodeOpcode m op = none ↔ ∀ o, m.byte o ≠ op := by
  constructor
  · rintro h o rfl
    rw [decodeOpcode_byte] at h
    cases h
  · intro h
    cases hd : decodeOpcode m op with
    | none => rfl
    | some d => exact absurd (decodeOpcode_some hd).1.symm (h d.instr)

/-- The instruction assembled for a name has that name. -/
@[simp] theorem assemble_op (o : Op) (bs : List Byte) : (assemble o bs).op = o := by cases o <;> rfl

/-- Every instruction has as many operand bytes as its name's operand count. -/
@[simp] theorem Instr.operandBytes_length (i : Instr) : i.operandBytes.length = i.op.operandCount := by cases i <;> rfl

/-- An instruction is assembled from its own name and operand bytes. -/
@[simp] theorem assemble_operandBytes (i : Instr) : assemble i.op i.operandBytes = i := by cases i <;> rfl

/-- The assembled instruction's operand bytes are those it was assembled from, when there are as many as it has. -/
theorem operandBytes_assemble {o : Op} {bs : List Byte} (h : bs.length = o.operandCount) :
    (assemble o bs).operandBytes = bs := by
  cases o <;>
    first
    | (obtain rfl := List.length_eq_zero_iff.mp h; rfl)
    | (obtain ⟨a, rfl⟩ := List.length_eq_one_iff.mp h; rfl)
    | (obtain ⟨a, b, rfl⟩ := List.length_eq_two.mp h; rfl)

end Sys2Proof
end

