-- ==== Sys2Proof/Laws/Memory.lean ====
section
/-! SUPPORT. The laws of memory: reading after writing, and that every operation keeps the canonical form. -/

namespace Sys2Proof.Machine

/-! ### Reading -/

theorem Memory.wfFrom_mono {lo lo' : Nat} (h : lo' ≤ lo) : ∀ {m : Memory}, Memory.wfFrom lo m = true → Memory.wfFrom lo' m = true
  | [], _ => rfl
  | (b, v) :: rest, hw => by
    simp only [Memory.wfFrom, Bool.and_eq_true, decide_eq_true_eq] at hw ⊢
    exact ⟨⟨⟨by omega, hw.1.1.2⟩, hw.1.2⟩, hw.2⟩

/-- Below its first address a canonical memory lists nothing. -/
theorem Memory.read_below : ∀ {m : Memory} {lo a : Nat}, Memory.wfFrom lo m = true → a < lo → m.read a = Memory.unlisted
  | [], _, _, _, _ => rfl
  | (b, v) :: rest, lo, a, hw, ha => by
    simp only [Memory.wfFrom, Bool.and_eq_true, decide_eq_true_eq] at hw
    have hne : a ≠ b := by omega
    simp only [Memory.read, hne, if_false]
    exact Memory.read_below hw.2 (by omega)

/-- An address above 255 is never listed. -/
theorem Memory.read_above : ∀ {m : Memory} {lo a : Nat}, Memory.wfFrom lo m = true → 256 ≤ a → m.read a = Memory.unlisted
  | [], _, _, _, _ => rfl
  | (b, v) :: rest, lo, a, hw, ha => by
    simp only [Memory.wfFrom, Bool.and_eq_true, decide_eq_true_eq] at hw
    have hb : b < 256 := hw.1.1.2
    have hne : a ≠ b := by omega
    simp only [Memory.read, hne, if_false]
    exact Memory.read_above hw.2 ha

theorem Memory.read_cons (a q : Nat) (v : Byte) {rest : Memory} (hw : Memory.wfFrom (a + 1) rest = true) :
    Memory.read (Memory.cons a v rest) q = if q = a then v else rest.read q := by
  unfold Memory.cons
  split
  · next h =>
    split
    · next hq => rw [hq, h]; exact Memory.read_below hw (by omega)
    · rfl
  · rfl

/-- A read after a write gives the value at the address written, and elsewhere what was there (20_memory.md R59). -/
theorem Memory.read_write : ∀ {m : Memory} {lo : Nat} (a q : Nat) (v : Byte), Memory.wfFrom lo m = true →
    (m.write a v).read q = if q = a then v else m.read q
  | [], _, a, q, v, _ => by
    rw [Memory.write, Memory.read_cons a q v rfl]
  | (b, w) :: rest, lo, a, q, v, hw => by
    have hfull := hw
    simp only [Memory.wfFrom, Bool.and_eq_true, decide_eq_true_eq] at hw
    unfold Memory.write
    split
    · next hab =>
      rw [Memory.read_cons a q v]
      simp only [Memory.wfFrom, Bool.and_eq_true, decide_eq_true_eq]
      exact ⟨⟨⟨by omega, hw.1.1.2⟩, hw.1.2⟩, hw.2⟩
    · split
      · next hab =>
        subst hab
        rw [Memory.read_cons a q v hw.2]
        by_cases hq : q = a
        · simp [hq]
        · simp [hq, Memory.read]
      · next h1 h2 =>
        simp only [Memory.read]
        rw [Memory.read_write a q v hw.2]
        by_cases hqb : q = b
        · subst hqb; simp [Ne.symm h2]
        · simp [hqb]

theorem Memory.read_cons_other {a q : Nat} (h : q ≠ a) (v : Byte) (rest : Memory) :
    Memory.read (Memory.cons a v rest) q = rest.read q := by
  unfold Memory.cons
  split
  · rfl
  · simp [Memory.read, h]

/-- A write leaves every other address alone, canonical form or not. -/
theorem Memory.read_write_other {a q : Nat} (h : q ≠ a) (v : Byte) : ∀ m : Memory, (m.write a v).read q = m.read q
  | [] => Memory.read_cons_other h v []
  | (b, w) :: rest => by
    unfold Memory.write
    split
    · exact Memory.read_cons_other h v _
    · split
      · next _ hab => subst hab; simp [Memory.read_cons_other h, Memory.read, h]
      · simp [Memory.read, Memory.read_write_other h v rest]

/-! ### The canonical form -/

theorem Memory.wfFrom_cons {a lo : Nat} {v : Byte} {rest : Memory} (hlo : lo ≤ a) (ha : a < 256)
    (hw : Memory.wfFrom (a + 1) rest = true) : Memory.wfFrom lo (Memory.cons a v rest) = true := by
  unfold Memory.cons
  split
  · exact Memory.wfFrom_mono (by omega) hw
  · next h =>
    simp only [Memory.wfFrom, Bool.and_eq_true, decide_eq_true_eq]
    exact ⟨⟨⟨hlo, ha⟩, h⟩, hw⟩

theorem Memory.wfFrom_write : ∀ {m : Memory} {lo : Nat} (a : Nat) (v : Byte), lo ≤ a → a < 256 →
    Memory.wfFrom lo m = true → Memory.wfFrom lo (m.write a v) = true
  | [], _, _, _, hlo, ha, _ => Memory.wfFrom_cons hlo ha rfl
  | (b, w) :: rest, lo, a, v, hlo, ha, hw => by
    simp only [Memory.wfFrom, Bool.and_eq_true, decide_eq_true_eq] at hw
    unfold Memory.write
    split
    · refine Memory.wfFrom_cons hlo ha ?_
      simp only [Memory.wfFrom, Bool.and_eq_true, decide_eq_true_eq]
      exact ⟨⟨⟨by omega, hw.1.1.2⟩, hw.1.2⟩, hw.2⟩
    · split
      · next hab => subst hab; exact Memory.wfFrom_cons hlo ha hw.2
      · simp only [Memory.wfFrom, Bool.and_eq_true, decide_eq_true_eq]
        exact ⟨⟨⟨hw.1.1.1, hw.1.1.2⟩, hw.1.2⟩, Memory.wfFrom_write a v (by omega) ha hw.2⟩

/-- A write at an address 0-255 keeps the canonical form. -/
theorem Memory.wf_write {m : Memory} (a : Nat) (v : Byte) (ha : a < 256) (hw : m.wf = true) : (m.write a v).wf = true :=
  Memory.wfFrom_write a v (Nat.zero_le a) ha hw

theorem Memory.wfFrom_build (f : Nat → Byte) : ∀ n lo : Nat, lo + n ≤ 256 → Memory.wfFrom lo (Memory.build f n lo) = true
  | 0, _, _ => rfl
  | n + 1, lo, h => Memory.wfFrom_cons (Nat.le_refl lo) (by omega) (Memory.wfFrom_build f n (lo + 1) (by omega))

/-- The memory the load builds reads as the function it was built from, and lists nothing outside the built range. -/
theorem Memory.read_build (f : Nat → Byte) : ∀ n lo q : Nat, lo + n ≤ 256 →
    (Memory.build f n lo).read q = if lo ≤ q ∧ q < lo + n then f q else Memory.unlisted
  | 0, lo, q, _ => by
    rw [if_neg (by omega)]; rfl
  | n + 1, lo, q, h => by
    rw [Memory.build, Memory.read_cons lo q (f lo) (Memory.wfFrom_build f n (lo + 1) (by omega)),
      Memory.read_build f n (lo + 1) q (by omega)]
    by_cases hq : q = lo
    · subst hq; simp
    · have hrange : (lo + 1 ≤ q ∧ q < lo + 1 + n) ↔ (lo ≤ q ∧ q < lo + (n + 1)) := by omega
      rw [if_neg hq]
      exact if_congr hrange rfl rfl

end Sys2Proof.Machine
end

