-- ==== Sys2Proof/Laws/State.lean ====
section
/-! SUPPORT. One lemma per field per update of the state: what an update gives the field, or that it leaves it alone. -/

namespace Sys2Proof.Machine

variable (s : State)

/-! ### setReg -/

@[simp] theorem State.setReg_x (r : RegIdx) (v : Byte) : (s.setReg r v).x = s.x.set r.val v r.isLt := rfl
@[simp] theorem State.setReg_pc (r : RegIdx) (v : Byte) : (s.setReg r v).pc = s.pc := rfl
@[simp] theorem State.setReg_flags (r : RegIdx) (v : Byte) : (s.setReg r v).flags = s.flags := rfl
@[simp] theorem State.setReg_mem (r : RegIdx) (v : Byte) : (s.setReg r v).mem = s.mem := rfl
@[simp] theorem State.setReg_runState (r : RegIdx) (v : Byte) : (s.setReg r v).runState = s.runState := rfl
@[simp] theorem State.setReg_haltReason (r : RegIdx) (v : Byte) : (s.setReg r v).haltReason = s.haltReason := rfl
@[simp] theorem State.setReg_diag (r : RegIdx) (v : Byte) : (s.setReg r v).diag = s.diag := rfl
@[simp] theorem State.setReg_out (r : RegIdx) (v : Byte) : (s.setReg r v).out = s.out := rfl
@[simp] theorem State.setReg_load (r : RegIdx) (v : Byte) (q : Byte) : (s.setReg r v).load q = s.load q := rfl

/-! ### setPc -/

@[simp] theorem State.setPc_x (v : PcWord) : (s.setPc v).x = s.x := rfl
@[simp] theorem State.setPc_pc (v : PcWord) : (s.setPc v).pc = v := rfl
@[simp] theorem State.setPc_flags (v : PcWord) : (s.setPc v).flags = s.flags := rfl
@[simp] theorem State.setPc_mem (v : PcWord) : (s.setPc v).mem = s.mem := rfl
@[simp] theorem State.setPc_runState (v : PcWord) : (s.setPc v).runState = s.runState := rfl
@[simp] theorem State.setPc_haltReason (v : PcWord) : (s.setPc v).haltReason = s.haltReason := rfl
@[simp] theorem State.setPc_diag (v : PcWord) : (s.setPc v).diag = s.diag := rfl
@[simp] theorem State.setPc_out (v : PcWord) : (s.setPc v).out = s.out := rfl
@[simp] theorem State.setPc_reg (v : PcWord) (q : RegIdx) : (s.setPc v).reg q = s.reg q := rfl
@[simp] theorem State.setPc_sp (v : PcWord) : (s.setPc v).sp = s.sp := rfl
@[simp] theorem State.setPc_load (v : PcWord) (q : Byte) : (s.setPc v).load q = s.load q := rfl

/-! ### jumpTo -/

@[simp] theorem State.jumpTo_x (v : Byte) : (s.jumpTo v).x = s.x := rfl
@[simp] theorem State.jumpTo_pc (v : Byte) : (s.jumpTo v).pc = v.zeroExtend 9 := rfl
@[simp] theorem State.jumpTo_flags (v : Byte) : (s.jumpTo v).flags = s.flags := rfl
@[simp] theorem State.jumpTo_mem (v : Byte) : (s.jumpTo v).mem = s.mem := rfl
@[simp] theorem State.jumpTo_runState (v : Byte) : (s.jumpTo v).runState = s.runState := rfl
@[simp] theorem State.jumpTo_haltReason (v : Byte) : (s.jumpTo v).haltReason = s.haltReason := rfl
@[simp] theorem State.jumpTo_diag (v : Byte) : (s.jumpTo v).diag = s.diag := rfl
@[simp] theorem State.jumpTo_out (v : Byte) : (s.jumpTo v).out = s.out := rfl
@[simp] theorem State.jumpTo_reg (v : Byte) (q : RegIdx) : (s.jumpTo v).reg q = s.reg q := rfl
@[simp] theorem State.jumpTo_sp (v : Byte) : (s.jumpTo v).sp = s.sp := rfl
@[simp] theorem State.jumpTo_load (v : Byte) (q : Byte) : (s.jumpTo v).load q = s.load q := rfl

/-! ### setFlags -/

@[simp] theorem State.setFlags_x (f : Flags) : (s.setFlags f).x = s.x := rfl
@[simp] theorem State.setFlags_pc (f : Flags) : (s.setFlags f).pc = s.pc := rfl
@[simp] theorem State.setFlags_flags (f : Flags) : (s.setFlags f).flags = f := rfl
@[simp] theorem State.setFlags_mem (f : Flags) : (s.setFlags f).mem = s.mem := rfl
@[simp] theorem State.setFlags_runState (f : Flags) : (s.setFlags f).runState = s.runState := rfl
@[simp] theorem State.setFlags_haltReason (f : Flags) : (s.setFlags f).haltReason = s.haltReason := rfl
@[simp] theorem State.setFlags_diag (f : Flags) : (s.setFlags f).diag = s.diag := rfl
@[simp] theorem State.setFlags_out (f : Flags) : (s.setFlags f).out = s.out := rfl
@[simp] theorem State.setFlags_reg (f : Flags) (q : RegIdx) : (s.setFlags f).reg q = s.reg q := rfl
@[simp] theorem State.setFlags_sp (f : Flags) : (s.setFlags f).sp = s.sp := rfl
@[simp] theorem State.setFlags_load (f : Flags) (q : Byte) : (s.setFlags f).load q = s.load q := rfl

/-! ### store -/

@[simp] theorem State.store_x (a v : Byte) : (s.store a v).x = s.x := rfl
@[simp] theorem State.store_pc (a v : Byte) : (s.store a v).pc = s.pc := rfl
@[simp] theorem State.store_flags (a v : Byte) : (s.store a v).flags = s.flags := rfl
@[simp] theorem State.store_mem (a v : Byte) : (s.store a v).mem = s.mem.write a.toNat v := rfl
@[simp] theorem State.store_runState (a v : Byte) : (s.store a v).runState = s.runState := rfl
@[simp] theorem State.store_haltReason (a v : Byte) : (s.store a v).haltReason = s.haltReason := rfl
@[simp] theorem State.store_diag (a v : Byte) : (s.store a v).diag = s.diag := rfl
@[simp] theorem State.store_out (a v : Byte) : (s.store a v).out = s.out := rfl
@[simp] theorem State.store_reg (a v : Byte) (q : RegIdx) : (s.store a v).reg q = s.reg q := rfl
@[simp] theorem State.store_sp (a v : Byte) : (s.store a v).sp = s.sp := rfl

/-! ### emit -/

@[simp] theorem State.emit_x (v : Byte) : (s.emit v).x = s.x := rfl
@[simp] theorem State.emit_pc (v : Byte) : (s.emit v).pc = s.pc := rfl
@[simp] theorem State.emit_flags (v : Byte) : (s.emit v).flags = s.flags := rfl
@[simp] theorem State.emit_mem (v : Byte) : (s.emit v).mem = s.mem := rfl
@[simp] theorem State.emit_runState (v : Byte) : (s.emit v).runState = s.runState := rfl
@[simp] theorem State.emit_haltReason (v : Byte) : (s.emit v).haltReason = s.haltReason := rfl
@[simp] theorem State.emit_diag (v : Byte) : (s.emit v).diag = s.diag := rfl
@[simp] theorem State.emit_out (v : Byte) : (s.emit v).out = s.out ++ [v] := rfl
@[simp] theorem State.emit_reg (v : Byte) (q : RegIdx) : (s.emit v).reg q = s.reg q := rfl
@[simp] theorem State.emit_sp (v : Byte) : (s.emit v).sp = s.sp := rfl
@[simp] theorem State.emit_load (v : Byte) (q : Byte) : (s.emit v).load q = s.load q := rfl

/-! ### halt -/

@[simp] theorem State.halt_x (r : HaltReason) : (s.halt r).x = s.x := rfl
@[simp] theorem State.halt_pc (r : HaltReason) : (s.halt r).pc = s.pc := rfl
@[simp] theorem State.halt_flags (r : HaltReason) : (s.halt r).flags = s.flags := rfl
@[simp] theorem State.halt_mem (r : HaltReason) : (s.halt r).mem = s.mem := rfl
@[simp] theorem State.halt_runState (r : HaltReason) : (s.halt r).runState = .halted := rfl
@[simp] theorem State.halt_haltReason (r : HaltReason) : (s.halt r).haltReason = r := rfl
@[simp] theorem State.halt_diag (r : HaltReason) : (s.halt r).diag = s.diag := rfl
@[simp] theorem State.halt_out (r : HaltReason) : (s.halt r).out = s.out := rfl
@[simp] theorem State.halt_reg (r : HaltReason) (q : RegIdx) : (s.halt r).reg q = s.reg q := rfl
@[simp] theorem State.halt_sp (r : HaltReason) : (s.halt r).sp = s.sp := rfl
@[simp] theorem State.halt_load (r : HaltReason) (q : Byte) : (s.halt r).load q = s.load q := rfl

/-! ### faultEntry -/

@[simp] theorem State.faultEntry_x (c : Cause) (o : Option Byte) : (s.faultEntry c o).x = s.x := rfl
@[simp] theorem State.faultEntry_pc (c : Cause) (o : Option Byte) : (s.faultEntry c o).pc = s.pc := rfl
@[simp] theorem State.faultEntry_flags (c : Cause) (o : Option Byte) : (s.faultEntry c o).flags = s.flags := rfl
@[simp] theorem State.faultEntry_mem (c : Cause) (o : Option Byte) : (s.faultEntry c o).mem = s.mem := rfl
@[simp] theorem State.faultEntry_runState (c : Cause) (o : Option Byte) : (s.faultEntry c o).runState = .halted := rfl
@[simp] theorem State.faultEntry_haltReason (c : Cause) (o : Option Byte) : (s.faultEntry c o).haltReason = c.haltReason := rfl
@[simp] theorem State.faultEntry_diag (c : Cause) (o : Option Byte) : (s.faultEntry c o).diag = some { pc := s.pc, opcode := o, detail := c.detail } := rfl
@[simp] theorem State.faultEntry_out (c : Cause) (o : Option Byte) : (s.faultEntry c o).out = s.out := rfl
@[simp] theorem State.faultEntry_reg (c : Cause) (o : Option Byte) (q : RegIdx) : (s.faultEntry c o).reg q = s.reg q := rfl
@[simp] theorem State.faultEntry_sp (c : Cause) (o : Option Byte) : (s.faultEntry c o).sp = s.sp := rfl
@[simp] theorem State.faultEntry_load (c : Cause) (o : Option Byte) (q : Byte) : (s.faultEntry c o).load q = s.load q := rfl

/-! ### setSp -/

@[simp] theorem State.setSp_x (v : Byte) : (s.setSp v).x = s.x.set 7 v := rfl
@[simp] theorem State.setSp_pc (v : Byte) : (s.setSp v).pc = s.pc := rfl
@[simp] theorem State.setSp_flags (v : Byte) : (s.setSp v).flags = s.flags := rfl
@[simp] theorem State.setSp_mem (v : Byte) : (s.setSp v).mem = s.mem := rfl
@[simp] theorem State.setSp_runState (v : Byte) : (s.setSp v).runState = s.runState := rfl
@[simp] theorem State.setSp_haltReason (v : Byte) : (s.setSp v).haltReason = s.haltReason := rfl
@[simp] theorem State.setSp_diag (v : Byte) : (s.setSp v).diag = s.diag := rfl
@[simp] theorem State.setSp_out (v : Byte) : (s.setSp v).out = s.out := rfl
@[simp] theorem State.setSp_load (v : Byte) (q : Byte) : (s.setSp v).load q = s.load q := rfl

/-! ### Reading a register after a register write -/

theorem State.setReg_reg (r : RegIdx) (v : Byte) (q : RegIdx) :
    (s.setReg r v).reg q = if q = r then v else s.reg q := by
  simp only [State.reg, State.setReg, Fin.getElem_fin, Vector.getElem_set]
  by_cases h : q = r
  · simp [h]
  · simp [h, Fin.val_inj, Ne.symm h]

@[simp] theorem State.setReg_reg_same (r : RegIdx) (v : Byte) : (s.setReg r v).reg r = v := by
  simp [State.setReg_reg]

@[simp] theorem State.setReg_reg_other {r q : RegIdx} (h : q ≠ r) (v : Byte) : (s.setReg r v).reg q = s.reg q := by
  simp [State.setReg_reg, h]

@[simp] theorem State.setSp_sp (v : Byte) : (s.setSp v).sp = v := by
  simp [State.sp, State.setSp]

theorem State.setSp_reg (v : Byte) (q : RegIdx) :
    (s.setSp v).reg q = if q = Config.stackPointer then v else s.reg q := by
  simp [State.setSp, State.setReg_reg]

/-- Two register files that read the same everywhere are the same. -/
theorem State.x_ext {s t : State} (h : ∀ r : RegIdx, t.reg r = s.reg r) : t.x = s.x := by
  apply Vector.ext
  intro i hi
  exact h ⟨i, hi⟩

/-! ### The PC-advance FSM -/

@[simp] theorem State.advancePc_x (op : Byte) : (s.advancePc op).x = s.x := by
  unfold State.advancePc; split <;> rfl
@[simp] theorem State.advancePc_flags (op : Byte) : (s.advancePc op).flags = s.flags := by
  unfold State.advancePc; split <;> rfl
@[simp] theorem State.advancePc_mem (op : Byte) : (s.advancePc op).mem = s.mem := by
  unfold State.advancePc; split <;> rfl
@[simp] theorem State.advancePc_runState (op : Byte) : (s.advancePc op).runState = s.runState := by
  unfold State.advancePc; split <;> rfl
@[simp] theorem State.advancePc_haltReason (op : Byte) : (s.advancePc op).haltReason = s.haltReason := by
  unfold State.advancePc; split <;> rfl
@[simp] theorem State.advancePc_diag (op : Byte) : (s.advancePc op).diag = s.diag := by
  unfold State.advancePc; split <;> rfl
@[simp] theorem State.advancePc_out (op : Byte) : (s.advancePc op).out = s.out := by
  unfold State.advancePc; split <;> rfl

theorem State.advancePc_pc (op : Byte) :
    (s.advancePc op).pc =
      if s.faulted || opcodeSetsPc op then s.pc else s.pc + BitVec.ofNat 9 (opcodeLength op) := by
  unfold State.advancePc; split <;> rfl

/-- Fault entry is recognised as one. -/
@[simp] theorem State.faultEntry_faulted (c : Cause) (o : Option Byte) : (s.faultEntry c o).faulted = true := by
  cases c <;> rfl

/-- A Running state is not one that fault entry left. -/
theorem State.not_faulted_of_running {s : State} (h : s.runState = .running) : s.faulted = false := by
  simp [State.faulted, h]

/-- The PC-advance FSM leaves a fault entry alone. -/
@[simp] theorem State.faultEntry_advancePc (c : Cause) (o : Option Byte) (op : Byte) :
    (s.faultEntry c o).advancePc op = s.faultEntry c o := by
  simp [State.advancePc]

end Sys2Proof.Machine
end

