-- ==== Sys2Proof/Laws/Ops.lean ====
section
/-! SUPPORT. One lemma per shared operation that says everything it can do; the proofs cite these instead of unfolding. -/

namespace Sys2Proof.Machine

variable {s t : State}

/-- Memory reads at 0-255 succeed; above, they raise the caller's kind (20_memory.md R53). -/
theorem State.memRead_ok (k : AddressKind) {a : Nat} (h : a ≤ 255) : s.memRead k a = .ok (s.mem.read a) := by
  simp [State.memRead, Nat.not_lt.mpr h]

theorem State.memRead_error (k : AddressKind) {a : Nat} (h : 255 < a) : s.memRead k a = .error (.addressFault k a) := by
  simp [State.memRead, h]

theorem State.opcodeAtPc_of_le (h : s.pc.toNat ≤ 255) : s.opcodeAtPc = some (s.mem.read s.pc.toNat) := by
  simp [State.opcodeAtPc, State.memRead_ok _ h, Except.toOption]

/-- Committing gives a next state always: the staged one, or fault entry (00_scope.md R13). -/
theorem commit_cases (r : Except Cause State) :
    (∃ t, r = .ok t ∧ commit s r = .next t) ∨
    (∃ c, r = .error c ∧ commit s r = .next (s.faultEntry c s.opcodeAtPc)) := by
  cases r with
  | ok t => exact .inl ⟨t, rfl, rfl⟩
  | error c => exact .inr ⟨c, rfl, rfl⟩

theorem commit_next (r : Except Cause State) : ∃ t, commit s r = .next t := by
  cases r <;> exact ⟨_, rfl⟩

@[simp] theorem commit_ok : commit s (.ok t) = .next t := rfl

@[simp] theorem commit_error (c : Cause) : commit s (.error c) = .next (s.faultEntry c s.opcodeAtPc) := rfl

/-- A register operand either names a register, or faults with its byte (30_encoding.md R78). -/
theorem withReg_of_lt {α : Type} {a : Byte} (h : a.toNat < 8) (k : RegIdx → Except Cause α) :
    withReg a k = k ⟨a.toNat, h⟩ := by simp [withReg, h]

theorem withReg_of_ge {α : Type} {a : Byte} (h : 8 ≤ a.toNat) (k : RegIdx → Except Cause α) :
    withReg a k = .error (.registerIndexFault a) := by simp [withReg, Nat.not_lt.mpr h]

@[simp] theorem regByte_toNat (r : RegIdx) : (regByte r).toNat = r.val := by
  simp only [regByte, BitVec.toNat_ofNat]; omega

@[simp] theorem withReg_regByte {α : Type} (r : RegIdx) (k : RegIdx → Except Cause α) :
    withReg (regByte r) k = k r := by
  rw [withReg_of_lt (by simp [r.isLt])]
  congr 1
  exact Fin.ext (regByte_toNat r)

/-- What a completed register operand means: the byte was 0-7. -/
theorem withReg_eq_ok {α : Type} {a : Byte} {k : RegIdx → Except Cause α} {v : α} (h : withReg a k = .ok v) :
    ∃ r : RegIdx, a = regByte r ∧ k r = .ok v := by
  by_cases ha : a.toNat < 8
  · rw [withReg_of_lt ha] at h
    exact ⟨⟨a.toNat, ha⟩, BitVec.eq_of_toNat_eq (by simp), h⟩
  · rw [withReg_of_ge (Nat.not_lt.mp ha)] at h
    cases h

/-- The pre-decrement either moves SP down by one or faults at 0 (43_stack.md R170). -/
theorem State.decSp_cases (s : State) :
    (s.sp = 0 ∧ s.decSp = .error (.addressFault .spDecrement (-1))) ∨
    (s.sp ≠ 0 ∧ s.decSp = .ok (s.setSp (s.sp - 1))) := by
  unfold State.decSp
  by_cases h : s.sp = 0
  · exact .inl ⟨h, if_pos h⟩
  · exact .inr ⟨h, if_neg h⟩

/-- The post-increment either moves SP up by one or faults at 255 (43_stack.md R171). -/
theorem State.incSp_cases (s : State) :
    (s.sp = 255 ∧ s.incSp = .error (.addressFault .spIncrement 256)) ∨
    (s.sp ≠ 255 ∧ s.incSp = .ok (s.setSp (s.sp + 1))) := by
  unfold State.incSp
  by_cases h : s.sp = 255
  · exact .inl ⟨h, if_pos h⟩
  · exact .inr ⟨h, if_neg h⟩

/-- Everything a push of a value can do (43_stack.md R170). -/
theorem State.push_cases (s : State) (v : Nat) :
    (s.sp = 0 ∧ s.push v = .error (.addressFault .spDecrement (-1))) ∨
    (s.sp ≠ 0 ∧ 255 < v ∧ s.push v = .error (.addressFault .returnAddress v)) ∨
    (s.sp ≠ 0 ∧ v ≤ 255 ∧ s.push v = .ok ((s.setSp (s.sp - 1)).store (s.sp - 1) (BitVec.ofNat 8 v))) := by
  rcases s.decSp_cases with ⟨h, hd⟩ | ⟨h, hd⟩
  · exact .inl ⟨h, by simp [State.push, hd]⟩
  · by_cases hv : 255 < v
    · exact .inr (.inl ⟨h, hv, by simp [State.push, hd, hv]⟩)
    · exact .inr (.inr ⟨h, Nat.not_lt.mp hv, by simp [State.push, hd, hv]⟩)

/-- Everything a pop of a value can do (43_stack.md R171). -/
theorem State.popValue_cases (s : State) :
    (s.sp = 255 ∧ s.popValue = .error (.addressFault .spIncrement 256)) ∨
    (s.sp ≠ 255 ∧ s.popValue = .ok (s.load s.sp, s.setSp (s.sp + 1))) := by
  rcases s.incSp_cases with ⟨h, hd⟩ | ⟨h, hd⟩
  · exact .inl ⟨h, by simp [State.popValue, hd]⟩
  · exact .inr ⟨h, by simp [State.popValue, hd]⟩

/-- A store at a byte address keeps the canonical form. -/
theorem State.store_wf (a v : Byte) (h : s.mem.wf = true) : (s.store a v).mem.wf = true :=
  Memory.wf_write a.toNat v (by have := a.isLt; omega) h

/-- A load after a store (20_memory.md R59). -/
theorem State.store_read (a v : Byte) (q : Nat) (h : s.mem.wf = true) :
    (s.store a v).mem.read q = if q = a.toNat then v else s.mem.read q :=
  Memory.read_write a.toNat q v h

/-- The ALU's sum and product are the byte's own (41_alu.md R130). -/
theorem alu_add (A B : Byte) : alu .add A B = A + B := by
  apply BitVec.eq_of_toNat_eq; simp [alu]

theorem alu_mul (A B : Byte) : alu .mul A B = A * B := by
  apply BitVec.eq_of_toNat_eq; simp [alu]

end Sys2Proof.Machine
end

