-- ==== Sys2Proof/Laws/Loop.lean ====
section
/-! SUPPORT. Everything a step can do, said once. -/

namespace Sys2Proof.Machine

variable {s t : State} {m : OpcodeMap}

/-- A step of a Halted block is no step (40_execution_loop.md R100). -/
theorem stepWith_halted (h : s.runState = .halted) : stepWith m s = .fault .halted := by
  simp [stepWith, h]

/-- A Running step whose fetch faults enters that fault. -/
theorem stepWith_fetch_error (h : s.runState = .running) {f : FetchFault} (hf : s.fetch m = .error f) :
    stepWith m s = .next (s.faultEntry f.cause f.opcode) := by
  simp [stepWith, h, hf]

/-- A Running step whose fetch succeeds executes the instruction, then advances pc. -/
theorem stepWith_fetch_ok (h : s.runState = .running) {f : Fetched} (hf : s.fetch m = .ok f)
    (he : exec f.instr s = .next t) : stepWith m s = .next (t.advancePc f.opcode) := by
  simp [stepWith, h, hf, he]

/-- The inversion of a step that answers a next state. -/
theorem stepWith_cases (h : stepWith m s = .next t) :
    s.runState = .running ∧
      ((∃ f, s.fetch m = .error f ∧ t = s.faultEntry f.cause f.opcode) ∨
       (∃ f u, s.fetch m = .ok f ∧ exec f.instr s = .next u ∧ t = u.advancePc f.opcode)) := by
  unfold stepWith at h
  split at h
  · cases h
  · next hr =>
    refine ⟨hr, ?_⟩
    split at h
    · next f hf => cases h; exact .inl ⟨f, hf, rfl⟩
    · next f hf =>
      split at h
      · next u hu => cases h; exact .inr ⟨f, u, hf, hu, rfl⟩
      · cases h
      · cases h

/-- The operand fetch: all bytes, or an OPERAND fault with the first address above 255 (40_execution_loop.md R104). -/
theorem State.fetchOperands_cases (s : State) : ∀ n k : Nat, s.pc.toNat + k ≤ 256 →
    (s.pc.toNat + k + n ≤ 256 ∧ ∃ bs, s.fetchOperands n k = .ok bs ∧ bs.length = n ∧
        ∀ j < n, bs[j]? = some (s.mem.read (s.pc.toNat + k + j))) ∨
    (256 < s.pc.toNat + k + n ∧ s.fetchOperands n k = .error (.addressFault .operand 256))
  | 0, k, h => .inl ⟨by omega, [], rfl, rfl, by intro j hj; omega⟩
  | n + 1, k, h => by
    by_cases hk : s.pc.toNat + k ≤ 255
    · rcases s.fetchOperands_cases n (k + 1) (by omega) with ⟨hle, bs, hbs, hlen, hget⟩ | ⟨hgt, he⟩
      · refine .inl ⟨by omega, s.mem.read (s.pc.toNat + k) :: bs, ?_, by simp [hlen], ?_⟩
        · simp [State.fetchOperands, State.memRead_ok _ hk, hbs]
        · intro j hj
          cases j with
          | zero => simp
          | succ j => simpa [Nat.add_assoc, Nat.add_comm 1] using hget j (by omega)
      · refine .inr ⟨by omega, ?_⟩
        simp [State.fetchOperands, State.memRead_ok _ hk, he]
    · have h256 : s.pc.toNat + k = 256 := by omega
      refine .inr ⟨by omega, ?_⟩
      simp [State.fetchOperands, h256, State.memRead]

/-- What a fetch can answer, fault by fault in the order the loop meets them (60_exceptions.md R228). -/
theorem State.fetch_cases (s : State) (m : OpcodeMap) :
    (255 < s.pc.toNat ∧ s.fetch m = .error { cause := .addressFault .fetch s.pc.toNat, opcode := none }) ∨
    (s.pc.toNat ≤ 255 ∧ (∀ o, m.byte o ≠ s.mem.read s.pc.toNat) ∧
      s.fetch m = .error { cause := .decodeError, opcode := some (s.mem.read s.pc.toNat) }) ∨
    (∃ o, s.pc.toNat ≤ 255 ∧ s.mem.read s.pc.toNat = m.byte o ∧ 255 < s.pc.toNat + o.operandCount ∧
      s.fetch m = .error { cause := .addressFault .operand 256, opcode := some (m.byte o) }) ∨
    (∃ o bs, s.pc.toNat + o.operandCount ≤ 255 ∧ s.mem.read s.pc.toNat = m.byte o ∧ bs.length = o.operandCount ∧
      (∀ j < o.operandCount, bs[j]? = some (s.mem.read (s.pc.toNat + 1 + j))) ∧
      s.fetch m = .ok { opcode := m.byte o, instr := assemble o bs }) := by
  by_cases hpc : s.pc.toNat ≤ 255
  · cases hd : decodeOpcode m (s.mem.read s.pc.toNat) with
    | none =>
      refine .inr (.inl ⟨hpc, decodeOpcode_none.mp hd, ?_⟩)
      simp [State.fetch, State.memRead_ok _ hpc, hd]
    | some d =>
      obtain ⟨hop, hcount, -, -⟩ := decodeOpcode_some hd
      rcases s.fetchOperands_cases d.count 1 (by omega) with ⟨hle, bs, hbs, hlen, hget⟩ | ⟨hgt, he⟩
      · refine .inr (.inr (.inr ⟨d.instr, bs, by omega, hop, by rw [hlen, hcount], by rwa [hcount] at hget, ?_⟩))
        simp [State.fetch, State.memRead_ok _ hpc, hd, hbs, ← hop]
      · refine .inr (.inr (.inl ⟨d.instr, hpc, hop, by omega, ?_⟩))
        simp [State.fetch, State.memRead_ok _ hpc, hd, he, ← hop]
  · refine .inl ⟨Nat.not_le.mp hpc, ?_⟩
    simp [State.fetch, State.memRead_error _ (Nat.not_le.mp hpc)]

end Sys2Proof.Machine
end

