-- ==== Sys2Proof/Laws/Code.lean ====
section
/-! SUPPORT. The code bytes at pc and what they make the fetch answer. -/

namespace Sys2Proof.Machine

variable {s : State} {m : OpcodeMap}

/-- The bytes from an address that equal a given list lie below 256 and read as that list. -/
theorem State.bytesFrom_eq (s : State) : ∀ (bs : List Byte) (a : Nat), s.bytesFrom bs.length a = bs ↔
    (bs = [] ∨ a + bs.length ≤ 256) ∧ ∀ k (h : k < bs.length), s.mem.read (a + k) = bs[k]
  | [], a => by simp [State.bytesFrom]
  | b :: bs, a => by
    simp only [List.length_cons, State.bytesFrom]
    by_cases ha : a ≤ 255
    · rw [if_pos ha, List.cons.injEq, s.bytesFrom_eq bs (a + 1)]
      constructor
      · rintro ⟨h0, hlen, hget⟩
        refine ⟨.inr ?_, ?_⟩
        · rcases hlen with rfl | hlen
          · simp; omega
          · omega
        · intro k hk
          cases k with
          | zero => exact h0
          | succ k => simpa [Nat.add_assoc, Nat.add_comm 1] using hget k (by simpa using hk)
      · rintro ⟨hlen, hget⟩
        refine ⟨hget 0 (by simp), .inr ?_, ?_⟩
        · rcases hlen with h | h
          · cases h
          · omega
        · intro k hk
          have h := hget (k + 1) (by simpa using hk)
          rw [List.getElem_cons_succ] at h
          rw [Nat.add_assoc, Nat.add_comm 1]
          exact h
    · rw [if_neg ha]
      constructor
      · intro h; cases h
      · rintro ⟨h | h, -⟩
        · cases h
        · omega

/-- An instruction lies at pc exactly when its opcode and operand bytes do. -/
theorem codeAt_iff (i : Instr) : CodeAt m i s ↔
    s.pc.toNat + i.operandBytes.length ≤ 255 ∧ s.mem.read s.pc.toNat = m.byte i.op ∧
      ∀ k (h : k < i.operandBytes.length), s.mem.read (s.pc.toNat + 1 + k) = i.operandBytes[k] := by
  unfold CodeAt
  rw [State.bytesFrom_eq]
  simp only [encodeWith, List.length_cons]
  constructor
  · rintro ⟨h | h, hget⟩
    · cases h
    · refine ⟨by omega, hget 0 (by simp), fun k hk => ?_⟩
      simpa [Nat.add_assoc, Nat.add_comm 1] using hget (k + 1) (by simpa using hk)
  · rintro ⟨hlen, h0, hget⟩
    refine ⟨.inr (by omega), fun k hk => ?_⟩
    cases k with
    | zero => exact h0
    | succ k => simpa [Nat.add_assoc, Nat.add_comm 1] using hget k (by simpa using hk)

/-- Running an instruction is fetching its opcode and operand bytes. -/
theorem runs_iff_fetches (i : Instr) : Runs m i s ↔ Fetches m s i.op i.operandBytes :=
  and_congr_right fun _ => codeAt_iff i

/-- The fetch answers the instruction whose opcode and operand bytes lie at pc. -/
theorem State.fetch_of_fetches {o : Op} {bs : List Byte} (hl : bs.length = o.operandCount) (h : Fetches m s o bs) :
    s.fetch m = .ok { opcode := m.byte o, instr := assemble o bs } := by
  obtain ⟨-, hpc, hop, hget⟩ := h
  rcases s.fetch_cases m with ⟨hgt, -⟩ | ⟨-, hno, -⟩ | ⟨p, -, hp, hgt, -⟩ | ⟨p, cs, hle, hp, hlen, hcs, hf⟩
  · omega
  · exact absurd hop.symm (hno o)
  · have hpo : p = o := m.injective p o (by rw [← hp, hop])
    subst hpo
    omega
  · have hpo : p = o := m.injective p o (by rw [← hp, hop])
    subst hpo
    have hbs : cs = bs := by
      apply List.ext_getElem (by omega)
      intro k h1 h2
      have hk := hcs k (by omega)
      rw [List.getElem?_eq_getElem h1, Option.some.injEq] at hk
      rw [hk, hget k h2]
    rw [hf, hbs]

/-- Where the opcode lies at pc and all its operand bytes lie below 256, some instruction of that name runs. -/
theorem exists_runs {o : Op} (hr : s.runState = .running) (hpc : s.pc.toNat + o.operandCount ≤ 255)
    (hop : s.mem.read s.pc.toNat = m.byte o) : ∃ i : Instr, i.op = o ∧ Runs m i s := by
  rcases s.fetch_cases m with ⟨hgt, -⟩ | ⟨-, hno, -⟩ | ⟨p, -, hp, hgt, -⟩ | ⟨p, cs, hle, hp, hlen, hcs, hf⟩
  · omega
  · exact absurd hop.symm (hno o)
  · have hpo : p = o := m.injective p o (by rw [← hp, hop])
    subst hpo; omega
  · have hpo : p = o := m.injective p o (by rw [← hp, hop])
    subst hpo
    refine ⟨assemble p cs, assemble_op p cs, (runs_iff_fetches _).mpr ?_⟩
    have hops := operandBytes_assemble hlen
    rw [hops, assemble_op]
    refine ⟨hr, by omega, hp, fun k hk => ?_⟩
    have h := hcs k (by omega)
    rw [List.getElem?_eq_getElem hk, Option.some.injEq] at h
    exact h.symm

/-- A step of an instruction that lies at pc executes it and advances pc. -/
theorem stepWith_of_runs {i : Instr} {t : State} (h : Runs m i s) (he : exec i s = .next t) :
    stepWith m s = .next (t.advancePc (m.byte i.op)) := by
  have hf := State.fetch_of_fetches i.operandBytes_length ((runs_iff_fetches i).mp h)
  rw [assemble_operandBytes] at hf
  exact stepWith_fetch_ok h.1 hf he

/-- The byte at a pc up to 255 is what the next step of a Running block fetches as its opcode. -/
theorem nextOpcodeIs_read (hr : s.runState = .running) (hp : s.pc.toNat ≤ 255) :
    NextOpcodeIs m s (s.mem.read s.pc.toNat) := by
  rcases s.fetch_cases m with ⟨hgt, -⟩ | ⟨-, -, hf⟩ | ⟨o, -, ho, -, hf⟩ | ⟨o, bs, -, ho, -, -, hf⟩
  · omega
  · exact ⟨hp, rfl, fun f h => by simp [hf] at h, fun _ => stepWith_fetch_error hr hf⟩
  · exact ⟨hp, rfl, fun f h => by simp [hf] at h, fun hno => absurd ho.symm (hno o)⟩
  · refine ⟨hp, rfl, fun f h => ?_, fun hno => absurd ho.symm (hno o)⟩
    rw [hf] at h; cases h
    exact ⟨ho.symm, by rw [assemble_op, ho]⟩

end Sys2Proof.Machine
end

