-- ==== Sys2Proof/Laws/Exec.lean ====
section
/-! SUPPORT. What every instruction's meaning has in common, and its staged result. -/

namespace Sys2Proof.Machine

/-- Every meaning commits a staged result: it ends in that state or enters a fault (00_scope.md R13). -/
theorem exec_commits (i : Instr) (s : State) : ∃ r : Except Cause State, exec i s = commit s r := by
  cases i <;>
    simp only [exec, execHalt, execLoadImmediate, execPrintRegister, execMultiply, execAdd, execPush, execPop, execCall,
      execRet, execCompare, execJump, execJumpIfEqual, execJumpIfNotEqual] <;>
    exact ⟨_, rfl⟩

/-- Everything exec can answer: one constructor per effect, the faults among them. `ExecEffect s i t` says that from `s` the
instruction `i` ends in `t`. -/
inductive ExecEffect (s : State) : Instr → State → Prop where
  /-- A register operand above 7 (40_execution_loop.md R105). -/
  | indexFault (i : Instr) (b : Byte) (hb : 8 ≤ b.toNat) (hmem : b ∈ i.registerOperands) :
      ExecEffect s i (s.faultEntry (.registerIndexFault b) s.opcodeAtPc)
  /-- A push at SP = 0 (43_stack.md R170). -/
  | spDecrement (i : Instr) (hi : i.op = .push ∨ i.op = .call) (hsp : s.sp = 0) :
      ExecEffect s i (s.faultEntry (.addressFault .spDecrement (-1)) s.opcodeAtPc)
  /-- A pop where the SP to be incremented is 255 (43_stack.md R171, R173). -/
  | spIncrement (i : Instr) (hi : i.op = .pop ∨ i.op = .ret) :
      ExecEffect s i (s.faultEntry (.addressFault .spIncrement 256) s.opcodeAtPc)
  /-- A CALL whose return address does not fit a cell (44_control_flow.md R191). -/
  | returnAddress (i : Instr) (hi : i.op = .call) (hpc : 255 < s.pc.toNat + 2) :
      ExecEffect s i (s.faultEntry (.addressFault .returnAddress (s.pc.toNat + 2 : Nat)) s.opcodeAtPc)
  | halt : ExecEffect s .halt (s.halt .haltInstruction)
  | loadImmediate (r : RegIdx) (v : Byte) : ExecEffect s (.loadImmediate (regByte r) v) (s.setReg r v)
  | printRegister (r : RegIdx) : ExecEffect s (.printRegister (regByte r)) (s.emit (s.reg r))
  | multiply (a b : RegIdx) :
      ExecEffect s (.multiply (regByte a) (regByte b)) (s.setReg a (alu .mul (s.reg a) (s.reg b)))
  | add (a b : RegIdx) : ExecEffect s (.add (regByte a) (regByte b)) (s.setReg a (alu .add (s.reg a) (s.reg b)))
  | push (r : RegIdx) (hsp : s.sp ≠ 0) :
      ExecEffect s (.push (regByte r)) ((s.setSp (s.sp - 1)).store (s.sp - 1) ((s.setSp (s.sp - 1)).reg r))
  | pop (r : RegIdx) (hsp : (s.setReg r (s.load s.sp)).sp ≠ 255) :
      ExecEffect s (.pop (regByte r))
        ((s.setReg r (s.load s.sp)).setSp ((s.setReg r (s.load s.sp)).sp + 1))
  | call (r : RegIdx) (hsp : s.sp ≠ 0) (hpc : s.pc.toNat + 2 ≤ 255) :
      ExecEffect s (.call (regByte r))
        (((s.setSp (s.sp - 1)).store (s.sp - 1) (BitVec.ofNat 8 (s.pc.toNat + 2))).jumpTo ((s.setSp (s.sp - 1)).reg r))
  | ret (hsp : s.sp ≠ 255) : ExecEffect s .ret ((s.setSp (s.sp + 1)).jumpTo (s.load s.sp))
  | compare (a b : RegIdx) :
      ExecEffect s (.compare (regByte a) (regByte b)) (s.setFlags (compareFlags (s.reg a) (s.reg b)))
  | jump (r : RegIdx) : ExecEffect s (.jump (regByte r)) (s.jumpTo (s.reg r))
  | jumpIfEqual (r : RegIdx) : ExecEffect s (.jumpIfEqual (regByte r)) (s.branch s.flags.E (s.reg r))
  | jumpIfNotEqual (r : RegIdx) : ExecEffect s (.jumpIfNotEqual (regByte r)) (s.branch (!s.flags.E) (s.reg r))

/-- A register operand byte is one of a register, or above 7. -/
theorem regByte_or_ge (a : Byte) : (∃ r : RegIdx, a = regByte r) ∨ 8 ≤ a.toNat := by
  by_cases h : a.toNat < 8
  · exact .inl ⟨⟨a.toNat, h⟩, BitVec.eq_of_toNat_eq (by simp)⟩
  · exact .inr (Nat.not_lt.mp h)

/-- The inversion of exec. -/
theorem exec_effect {i : Instr} {s t : State} (h : exec i s = .next t) : ExecEffect s i t := by
  have one : ∀ {i : Instr} {a : Byte} {k : RegIdx → Except Cause State}, a ∈ i.registerOperands →
      commit s (withReg a k) = .next t → (∀ r, a = regByte r → commit s (k r) = .next t → ExecEffect s i t) →
      ExecEffect s i t := by
    intro i a k hmem hc hk
    rcases regByte_or_ge a with ⟨r, rfl⟩ | ha
    · exact hk r rfl (by simpa using hc)
    · rw [withReg_of_ge ha, commit_error] at hc
      cases hc
      exact .indexFault i a ha hmem
  cases i with
  | halt => cases h; exact .halt
  | loadImmediate reg value =>
    exact one (by simp [Instr.registerOperands]) h fun r hr hc => by subst hr; cases hc; exact .loadImmediate r value
  | printRegister reg =>
    exact one (by simp [Instr.registerOperands]) h fun r hr hc => by subst hr; cases hc; exact .printRegister r
  | multiply regA regB =>
    refine one (by simp [Instr.registerOperands]) h fun a ha hc => ?_
    exact one (by simp [Instr.registerOperands]) hc fun b hb hc => by
      subst ha hb; rw [withReg_regByte, commit_ok] at hc; cases hc; exact .multiply a b
  | add regA regB =>
    refine one (by simp [Instr.registerOperands]) h fun a ha hc => ?_
    exact one (by simp [Instr.registerOperands]) hc fun b hb hc => by
      subst ha hb; rw [withReg_regByte, commit_ok] at hc; cases hc; exact .add a b
  | push reg =>
    refine one (by simp [Instr.registerOperands]) h fun r hr hc => ?_
    subst hr
    rcases s.decSp_cases with ⟨hsp, hd⟩ | ⟨hsp, hd⟩
    · rw [hd] at hc; cases hc; exact .spDecrement _ (.inl rfl) hsp
    · rw [hd] at hc
      simp only [commit_ok, State.setSp_sp] at hc
      cases hc; exact .push r hsp
  | pop reg =>
    refine one (by simp [Instr.registerOperands]) h fun r hr hc => ?_
    subst hr
    rcases (s.setReg r (s.load s.sp)).incSp_cases with ⟨hsp, hd⟩ | ⟨hsp, hd⟩
    · rw [hd] at hc; cases hc; exact .spIncrement _ (.inl rfl)
    · rw [hd] at hc; cases hc; exact .pop r hsp
  | call reg =>
    refine one (by simp [Instr.registerOperands]) h fun r hr hc => ?_
    subst hr
    rcases s.push_cases (s.pc.toNat + 2) with ⟨hsp, hd⟩ | ⟨hsp, hpc, hd⟩ | ⟨hsp, hpc, hd⟩
    · rw [hd] at hc; cases hc; exact .spDecrement _ (.inr rfl) hsp
    · rw [hd] at hc; cases hc; exact .returnAddress _ rfl hpc
    · rw [hd] at hc; cases hc; exact .call r hsp hpc
  | ret =>
    have hc : commit s (match s.popValue with
      | .error c => .error c
      | .ok (v, t) => .ok (t.jumpTo v)) = .next t := h
    rcases s.popValue_cases with ⟨hsp, hd⟩ | ⟨hsp, hd⟩
    · rw [hd] at hc; cases hc; exact .spIncrement _ (.inr rfl)
    · rw [hd] at hc; cases hc; exact .ret hsp
  | compare regA regB =>
    refine one (by simp [Instr.registerOperands]) h fun a ha hc => ?_
    exact one (by simp [Instr.registerOperands]) hc fun b hb hc => by
      subst ha hb; rw [withReg_regByte, commit_ok] at hc; cases hc; exact .compare a b
  | jump reg =>
    exact one (by simp [Instr.registerOperands]) h fun r hr hc => by subst hr; cases hc; exact .jump r
  | jumpIfEqual reg =>
    exact one (by simp [Instr.registerOperands]) h fun r hr hc => by subst hr; cases hc; exact .jumpIfEqual r
  | jumpIfNotEqual reg =>
    exact one (by simp [Instr.registerOperands]) h fun r hr hc => by subst hr; cases hc; exact .jumpIfNotEqual r

end Sys2Proof.Machine
end

