-- ==== Sys2Proof/Laws/PerInstr.lean ====
section
/-! SUPPORT. Statements made of every instruction, one lemma per constructor. -/

namespace Sys2Proof.Laws.EncodedLength

/-- Under every `OPCODE_MAP` the encoding is as long as its opcode byte's bits 7-6 say (30_encoding.md R71). -/
def Statement (i : Instr) : Prop :=
  ∀ m : OpcodeMap, (encodeWith m i).length = opcodeLength (m.byte i.op)

theorem ofCount (i : Instr) (h : i.operandBytes.length = i.op.operandCount) : Statement i := by
  intro m
  simp [encodeWith, opcodeLength, m.count_eq, h]

theorem halt : Statement .halt := ofCount _ rfl
theorem loadImmediate (reg value : Byte) : Statement (.loadImmediate reg value) := ofCount _ rfl
theorem printRegister (reg : Byte) : Statement (.printRegister reg) := ofCount _ rfl
theorem multiply (regA regB : Byte) : Statement (.multiply regA regB) := ofCount _ rfl
theorem add (regA regB : Byte) : Statement (.add regA regB) := ofCount _ rfl
theorem push (reg : Byte) : Statement (.push reg) := ofCount _ rfl
theorem pop (reg : Byte) : Statement (.pop reg) := ofCount _ rfl
theorem call (reg : Byte) : Statement (.call reg) := ofCount _ rfl
theorem ret : Statement .ret := ofCount _ rfl
theorem compare (regA regB : Byte) : Statement (.compare regA regB) := ofCount _ rfl
theorem jump (reg : Byte) : Statement (.jump reg) := ofCount _ rfl
theorem jumpIfEqual (reg : Byte) : Statement (.jumpIfEqual reg) := ofCount _ rfl
theorem jumpIfNotEqual (reg : Byte) : Statement (.jumpIfNotEqual reg) := ofCount _ rfl

end Sys2Proof.Laws.EncodedLength
end

