-- ==== Sys2Proof/Tests/Slice0.lean ====
section
/-! SUPPORT. The model's own tests: the well-formedness smoke, the decoding of every instruction from a word written out from
the spec's encoding, the spec's vectors (95_test_vectors.md) one step each, and a witness for each statement's hypotheses. -/

namespace Sys2Proof.Tests

open Sys2Proof Sys2Proof.Machine

/-! ### Helpers -/

/-- The reset state with pc at `a` and the bytes stored there. -/
def codeAt (a : Nat) (bytes : List Byte) : State := { State.reset with pc := BitVec.ofNat 9 a }.placeBytes a bytes

/-- A byte stored in memory. -/
def withByte (a v : Byte) (s : State) : State := s.store a v

/-- A register set. -/
def withR (r : RegIdx) (v : Byte) (s : State) : State := s.setReg r v

/-- E set, as FLAGS_INIT may have it. -/
def withE (s : State) : State := s.setFlags { E := true, L := false, G := false }

/-- The next state of an outcome, if it is one. -/
def next? : Host.Outcome State Fault Refusal → Option State
  | .next t => some t
  | .fault _ => none
  | .refused _ => none

/-- What one step answers, read by `f`. -/
def after {α : Type} (f : State → α) (s : State) : Option α := (next? (step s)).map f

/-- halt_reason and diag. -/
def stop (s : State) : HaltReason × Option Diag := (s.haltReason, s.diag)

abbrev M : OpcodeMap := defaultOpcodeMap

/-! ### Well-formedness: each register operand out of range is refused, each at 7 is accepted -/

theorem test_ill_formed_refused :
    [Instr.loadImmediate 8 1, .printRegister 8, .multiply 8 0, .multiply 0 8, .add 8 0, .add 0 255, .push 8, .pop 8,
     .call 8, .compare 8 0, .compare 0 8, .jump 8, .jumpIfEqual 8, .jumpIfNotEqual 255].map Instr.wellFormed =
      List.replicate 14 false := by decide

theorem test_well_formed_accepted :
    [Instr.halt, .loadImmediate 7 255, .printRegister 7, .multiply 7 7, .add 7 7, .push 7, .pop 7, .call 7, .ret,
     .compare 7 7, .jump 7, .jumpIfEqual 7, .jumpIfNotEqual 7].map Instr.wellFormed =
      List.replicate 13 true := by decide

/-! ### Decoding: every constructor from its word, bit by bit from 30_encoding.md R76 and R77 -/

theorem test_decode_halt : decode [0b00000001] = .ok (.halt, []) := by decide
theorem test_decode_load_immediate : decode [0b10000010, 0b00000101, 0b11111111] = .ok (.loadImmediate 5 255, []) := by decide
theorem test_decode_print_register : decode [0b01000111, 0b00000110] = .ok (.printRegister 6, []) := by decide
theorem test_decode_multiply : decode [0b10100010, 0b00000011, 0b00000001] = .ok (.multiply 3 1, []) := by decide
theorem test_decode_add : decode [0b10100000, 0b00000001, 0b00000010] = .ok (.add 1 2, []) := by decide
theorem test_decode_push : decode [0b01000101, 0b00000010] = .ok (.push 2, []) := by decide
theorem test_decode_pop : decode [0b01000110, 0b00000111] = .ok (.pop 7, []) := by decide
theorem test_decode_call : decode [0b01010000, 0b00000001] = .ok (.call 1, []) := by decide
theorem test_decode_return : decode [0b00010001] = .ok (.ret, []) := by decide
theorem test_decode_compare : decode [0b10100111, 0b00000010, 0b00000011] = .ok (.compare 2 3, []) := by decide
theorem test_decode_jump : decode [0b01010100, 0b00000011] = .ok (.jump 3, []) := by decide
theorem test_decode_jump_if_equal : decode [0b01010101, 0b00000100] = .ok (.jumpIfEqual 4, []) := by decide
theorem test_decode_jump_if_not_equal : decode [0b01010110, 0b00000100] = .ok (.jumpIfNotEqual 4, []) := by decide

/-- Each reason to refuse, and the bytes after an instruction left over. -/
theorem test_decode_refuses :
    decode [] = .error .noOpcode ∧ decode [0xFF, 0, 0] = .error (.unassigned 0xFF) ∧
    decode [0x9F, 0, 0] = .error (.unassigned 0x9F) ∧ decode [0x82, 0] = .error (.missingOperand 0x82 2) ∧
    decode [0x47] = .error (.missingOperand 0x47 1) ∧ decode [0x11, 0xAA] = .ok (.ret, [0xAA]) := by decide

/-- Vectors D1-D11: count, length, sets_pc. -/
theorem test_opcode_fields :
    ([0x01, 0x11, 0x82, 0x45, 0x50, 0xA7, 0x00, 0x10, 0x9F, 0xC0, 0xFF] : List Byte).map
      (fun op => (opcodeCount op, opcodeLength op, opcodeSetsPc op)) =
    [(0, 1, false), (0, 1, true), (2, 3, false), (1, 2, false), (1, 2, true), (2, 3, false), (0, 1, false), (0, 1, true),
     (2, 3, true), (3, 4, false), (3, 4, true)] := by decide

/-- The table word numbers its bits from the first byte's; the first step after reset runs it. -/
theorem test_table_word :
    decodeTableWord 24 0x090182 = some (.loadImmediate 1 9) ∧ decodeTableWord 8 0xFF01 = some .halt ∧
    decodeTableWord 8 0xFF = none ∧
    after (fun t => (t.reg 1, t.pc)) (State.reset.withFetchWord 24 0x090182) = some (9, 3) := by decide

/-! ### One step each, from the spec's vectors -/

/-- K1. -/
theorem test_halt :
    after (fun t => (t.runState, t.haltReason, t.pc)) (codeAt 11 [0x01]) = some (.halted, .haltInstruction, 12) := by decide
/-- F4: HALT at 255 ends with pc 256, no fault. -/
theorem test_halt_at_255 : after (fun t => (t.haltReason, t.pc, t.diag)) (codeAt 255 [0x01]) =
    some (.haltInstruction, 256, none) := by decide
/-- M2. -/
theorem test_load_immediate : after (fun t => (t.reg 5, t.pc)) (codeAt 0 [0x82, 0x05, 0xFF]) = some (0xFF, 3) := by decide
/-- M6. -/
theorem test_load_immediate_bad_register : after (fun t => (t.x, t.pc, stop t)) (codeAt 0 [0x82, 0x08, 0x01]) =
    some (State.reset.x, 0, .registerIndexFault, some ⟨0, some 0x82, .operandByte 8⟩) := by decide
/-- M4. -/
theorem test_print_register :
    after (fun t => (t.out, t.pc)) (withR 0 72 (codeAt 0 [0x47, 0x00])) = some ([72], 2) := by decide
/-- M5. -/
theorem test_print_sp : after (·.out) (codeAt 0 [0x47, 0x07]) = some [244] := by decide
/-- A9. -/
theorem test_multiply_wraps :
    after (·.reg 0) (withR 1 255 (withR 0 255 (codeAt 0 [0xA2, 0x00, 0x01]))) = some 1 := by decide
/-- A11. -/
theorem test_multiply_same_register : after (fun t => (t.reg 3, t.pc)) (withR 3 15 (codeAt 0 [0xA2, 0x03, 0x03])) =
    some (225, 3) := by decide
/-- A3, and that regB keeps its value. -/
theorem test_add_wraps : after (fun t => (t.reg 0, t.reg 1)) (withR 1 100 (withR 0 200 (codeAt 0 [0xA0, 0x00, 0x01]))) =
    some (44, 100) := by decide
/-- A12: SP by arithmetic, no fault. -/
theorem test_add_to_sp : after (fun t => (t.sp, t.runState)) (withR 1 20 (codeAt 3 [0xA0, 0x07, 0x01])) =
    some (8, .running) := by decide
/-- S1. -/
theorem test_push : after (fun t => (t.sp, t.load 243, t.pc)) (withR 2 5 (codeAt 0 [0x45, 0x02])) =
    some (243, 5, 2) := by decide
/-- S5. -/
theorem test_push_sp : after (fun t => (t.sp, t.load 243)) (codeAt 0 [0x45, 0x07]) = some (243, 243) := by decide
/-- S2. -/
theorem test_pop : after (fun t => (t.reg 2, t.sp, t.load 243)) (withByte 243 5 (withR 7 243 (codeAt 0 [0x46, 0x02]))) =
    some (5, 244, 5) := by decide
/-- S7. -/
theorem test_pop_sp : after (·.sp) (withByte 244 10 (codeAt 0 [0x46, 0x07])) = some 11 := by decide
/-- K2. -/
theorem test_call : after (fun t => (t.load 243, t.sp, t.pc)) (withR 1 24 (codeAt 10 [0x50, 0x01])) =
    some (12, 243, 24) := by decide
/-- K10. -/
theorem test_call_sp : after (fun t => (t.sp, t.load 243, t.pc)) (codeAt 0 [0x50, 0x07]) = some (243, 2, 243) := by decide
/-- K4. -/
theorem test_return : after (fun t => (t.pc, t.sp)) (withByte 243 12 (withR 7 243 (codeAt 0 [0x11]))) =
    some (12, 244) := by decide
/-- K12. -/
theorem test_return_at_255 : after (fun t => (t.pc, t.sp, stop t)) (withR 7 255 (codeAt 3 [0x11])) =
    some (3, 255, .addressFault, some ⟨3, some 0x11, .address .spIncrement 256⟩) := by decide
/-- C5: unsigned. -/
theorem test_compare_unsigned :
    after (·.flags) (withR 1 0x7F (withR 0 0x80 (codeAt 0 [0xA7, 0x00, 0x01]))) =
      some { E := false, L := false, G := true } := by decide
/-- C1, from a state with E set: all three are written. -/
theorem test_compare_overwrites :
    after (·.flags) (withE (withR 3 7 (withR 2 5 (codeAt 0 [0xA7, 0x02, 0x03])))) =
      some { E := false, L := true, G := false } := by decide
/-- K9. -/
theorem test_jump : after (·.pc) (withR 3 0 (codeAt 20 [0x54, 0x03])) = some 0 := by decide
/-- K5. -/
theorem test_jump_if_equal_taken : after (·.pc) (withE (withR 4 40 (codeAt 20 [0x55, 0x04]))) = some 40 := by decide
/-- K6. -/
theorem test_jump_if_equal_not_taken : after (·.pc) (withR 4 40 (codeAt 20 [0x55, 0x04])) = some 22 := by decide
/-- K7. -/
theorem test_jump_if_not_equal_taken : after (·.pc) (withR 4 40 (codeAt 20 [0x56, 0x04])) = some 40 := by decide
/-- K8. -/
theorem test_jump_if_not_equal_not_taken : after (·.pc) (withE (withR 4 40 (codeAt 20 [0x56, 0x04]))) = some 22 := by decide

/-! ### Faults, from the spec's vectors -/

/-- F1 (W8, P5), F5. -/
theorem test_decode_error :
    after (fun t => (t.pc, stop t)) (codeAt 0 [0xFF]) = some (0, .decodeError, some ⟨0, some 0xFF, .nothing⟩) ∧
    after stop (codeAt 255 [0xFF]) = some (.decodeError, some ⟨255, some 0xFF, .nothing⟩) := by decide
/-- F3, F7 (P7). -/
theorem test_fetch_faults :
    after stop (codeAt 254 [0x82, 0x00]) = some (.addressFault, some ⟨254, some 0x82, .address .operand 256⟩) ∧
    after stop (codeAt 256 []) = some (.addressFault, some ⟨256, none, .address .fetch 256⟩) := by decide
/-- F6, F8. -/
theorem test_register_index_faults :
    after stop (codeAt 0 [0xA0, 0x00, 0x09]) = some (.registerIndexFault, some ⟨0, some 0xA0, .operandByte 9⟩) ∧
    after stop (codeAt 0 [0xA0, 0x0A, 0x09]) = some (.registerIndexFault, some ⟨0, some 0xA0, .operandByte 10⟩) := by decide
/-- S3 (P6), S4, S8. -/
theorem test_stack_faults :
    after (fun t => (t.sp, t.mem, stop t)) (withR 7 0 (codeAt 3 [0x45, 0x00])) =
      some (0, [(3, 0x45)], .addressFault, some ⟨3, some 0x45, .address .spDecrement (-1)⟩) ∧
    after (fun t => (t.sp, stop t)) (withR 7 255 (codeAt 3 [0x46, 0x00])) =
      some (255, .addressFault, some ⟨3, some 0x46, .address .spIncrement 256⟩) ∧
    after (fun t => (t.sp, t.haltReason)) (withByte 244 255 (codeAt 0 [0x46, 0x07])) = some (244, .addressFault) := by decide
/-- K11. -/
theorem test_call_return_address_fault :
    after (fun t => (t.sp, t.pc, stop t)) (codeAt 254 [0x50, 0x01]) =
      some (244, 254, .addressFault, some ⟨254, some 0x50, .address .returnAddress 256⟩) := by decide
/-- R100: no step while Halted. -/
theorem test_halted_takes_no_step : after (·.pc) (State.reset.halt .haltInstruction) = none := by decide

/-! ### Reset and memory -/

theorem test_reset :
    State.reset.sp = 244 ∧ State.reset.pc = 0 ∧ State.reset.runState = .running ∧ State.reset.haltReason = .none ∧
    State.reset.diag = none ∧ State.reset.out = [] ∧ State.reset.mem.wf = true := by decide

/-- Writing what an unlisted address reads as removes the entry; a second write to an address replaces the first. -/
theorem test_memory_canonical :
    Memory.write (Memory.write (Memory.write [] 7 1) 3 2) 7 0 = [(3, 2)] ∧ Memory.write (Memory.write [] 7 1) 7 2 = [(7, 2)] ∧
    Memory.wf [(3, 2), (3, 1)] = false ∧ Memory.wf [(3, 0)] = false ∧ Memory.wf [(256, 1)] = false := by decide

theorem test_codes :
    [HaltReason.none, .haltInstruction, .decodeError, .addressFault, .registerIndexFault].map HaltReason.code =
      [0, 1, 2, 3, 4] ∧
    [AddressKind.fetch, .operand, .spDecrement, .spIncrement, .returnAddress].map AddressKind.code =
      [0, 1, 2, 3, 4] := by decide

/-! ### Witnesses: concrete states and operands that meet each statement's hypotheses, at the boundary values -/

theorem witness_DecoderReadsOpcodeByte : M.byte .add = 0xA0 ∧ ∀ o ∈ Op.all, M.byte o ≠ 0xFF := by decide
theorem witness_BytesFromC0AreDecodeErrors :
    0xC0 ≤ (0xC0 : Byte).toNat ∧ (codeAt 255 [0xC0]).runState = .running ∧ (codeAt 255 [0xC0]).pc.toNat ≤ 255 ∧
    (codeAt 255 [0xC0]).mem.read (codeAt 255 [0xC0]).pc.toNat = 0xC0 := by decide
theorem witness_DecodedBytesAreTheEncoding : decodeWith M [0x82, 0x08, 0x01, 0x01] = .ok (.loadImmediate 8 1, [0x01]) := by decide
theorem witness_StepRunsTheDecodedInstruction :
    (codeAt 255 [0x01]).runState = .running ∧ decodeWith M (codeAt 255 [0x01]).codeBytes = .ok (.halt, []) ∧
    decodeWith M (codeAt 253 [0xA0, 0x07, 0x07]).codeBytes = .ok (.add 7 7, []) := by decide
/-- One state for each clause: bit 4 clear, bit 4 set, a fault. -/
theorem witness_PcAdvanceComesFromOpcodeBits :
    Runs M (.add 7 7) (codeAt 253 [0xA0, 0x07, 0x07]) ∧
    (next? (exec (.add 7 7) (codeAt 253 [0xA0, 0x07, 0x07]))).map State.faulted = some false ∧
    (M.byte .add).toNat / 16 % 2 = 0 ∧
    Runs M .ret (codeAt 255 [0x11]) ∧ (next? (exec .ret (codeAt 255 [0x11]))).map State.faulted = some false ∧
    (M.byte .ret).toNat / 16 % 2 = 1 ∧
    Runs M (.push 8) (codeAt 254 [0x45, 0x08]) ∧
    (next? (exec (.push 8) (codeAt 254 [0x45, 0x08]))).map State.faulted = some true := by decide
theorem witness_HandlersKeepThePcContract :
    Op.setsPc .push = false ∧ (next? (exec (.push 8) State.reset)).isSome = true ∧
    [Instr.call (regByte 7), .ret, .jump (regByte 7), .jumpIfEqual (regByte 7), .jumpIfNotEqual (regByte 7)].map
      (fun i => (next? (exec i State.reset)).map State.faulted) = List.replicate 5 (some false) := by decide
theorem witness_HaltStopsTheLoop : Fetches M (codeAt 255 [0x01]) .halt [] := by decide
theorem witness_LoadImmediateSetsRegister :
    Fetches M (codeAt 253 [0x82, 0x07, 0xFF]) .loadImmediate [regByte 7, 0xFF] := by decide
theorem witness_PrintRegisterEmitsValue : Fetches M (codeAt 254 [0x47, 0x07]) .printRegister [regByte 7] := by decide
theorem witness_AddWritesSumMod256 : Fetches M (codeAt 253 [0xA0, 0x07, 0x00]) .add [regByte 7, regByte 0] := by decide
theorem witness_MultiplyWritesProductMod256 :
    Fetches M (codeAt 253 [0xA2, 0x07, 0x07]) .multiply [regByte 7, regByte 7] := by decide
theorem witness_CompareSetsFlagsUnsigned :
    Fetches M (codeAt 253 [0xA7, 0x00, 0x07]) .compare [regByte 0, regByte 7] := by decide
/-- SP = 1 and SP = 0. -/
theorem witness_PushStoresBelowStackTop :
    Fetches M (withR 7 1 (codeAt 254 [0x45, 0x07])) .push [regByte 7] ∧ (withR 7 1 (codeAt 254 [0x45, 0x07])).sp ≠ 0 ∧
    Fetches M (withR 7 0 (codeAt 254 [0x45, 0x00])) .push [regByte 0] ∧
    (withR 7 0 (codeAt 254 [0x45, 0x00])).sp = 0 := by decide
/-- SP = 254 and 255; for register 7 a popped 254 and a popped 255. -/
theorem witness_PopLoadsStackTop :
    Fetches M (withR 7 254 (codeAt 9 [0x46, 0x00])) .pop [regByte 0] ∧ (withR 7 254 (codeAt 9 [0x46, 0x00])).sp ≠ 255 ∧
    Fetches M (withR 7 255 (codeAt 9 [0x46, 0x00])) .pop [regByte 0] ∧ (withR 7 255 (codeAt 9 [0x46, 0x00])).sp = 255 ∧
    Fetches M (withByte 244 254 (codeAt 9 [0x46, 0x07])) .pop [regByte 7] ∧
    (withByte 244 254 (codeAt 9 [0x46, 0x07])).load (withByte 244 254 (codeAt 9 [0x46, 0x07])).sp ≠ 255 ∧
    Fetches M (withByte 244 255 (codeAt 9 [0x46, 0x07])) .pop [regByte 7] ∧
    (withByte 244 255 (codeAt 9 [0x46, 0x07])).load (withByte 244 255 (codeAt 9 [0x46, 0x07])).sp = 255 := by decide
/-- At 253 with SP = 1; with SP = 0; at 254. -/
theorem witness_CallPushesReturnAddress :
    Fetches M (withR 7 1 (codeAt 253 [0x50, 0x07])) .call [regByte 7] ∧ (withR 7 1 (codeAt 253 [0x50, 0x07])).sp ≠ 0 ∧
    (withR 7 1 (codeAt 253 [0x50, 0x07])).pc.toNat + 2 ≤ 255 ∧
    Fetches M (withR 7 0 (codeAt 253 [0x50, 0x01])) .call [regByte 1] ∧ (withR 7 0 (codeAt 253 [0x50, 0x01])).sp = 0 ∧
    Fetches M (codeAt 254 [0x50, 0x01]) .call [regByte 1] ∧ (codeAt 254 [0x50, 0x01]).sp ≠ 0 ∧
    255 < (codeAt 254 [0x50, 0x01]).pc.toNat + 2 := by decide
/-- SP = 254 and 255. -/
theorem witness_ReturnPopsPc :
    Fetches M (withR 7 254 (codeAt 0 [0x11])) .ret [] ∧ (withR 7 254 (codeAt 0 [0x11])).sp ≠ 255 ∧
    Fetches M (withR 7 255 (codeAt 0 [0x11])) .ret [] ∧ (withR 7 255 (codeAt 0 [0x11])).sp = 255 := by decide
theorem witness_JumpSetsPcToRegister : Fetches M (codeAt 254 [0x54, 0x07]) .jump [regByte 7] := by decide
theorem witness_JumpIfEqualBranchesOnE :
    Fetches M (codeAt 254 [0x55, 0x07]) .jumpIfEqual [regByte 7] ∧ (codeAt 254 [0x55, 0x07]).flags.E = false ∧
    Fetches M (withE (codeAt 254 [0x55, 0x07])) .jumpIfEqual [regByte 7] := by decide
theorem witness_JumpIfNotEqualBranchesOnE :
    Fetches M (codeAt 254 [0x56, 0x07]) .jumpIfNotEqual [regByte 7] ∧ (codeAt 254 [0x56, 0x07]).flags.E = false ∧
    Fetches M (withE (codeAt 254 [0x56, 0x07])) .jumpIfNotEqual [regByte 7] := by decide
/-- An operand of 8, first and second; operands of 7, which fault in nothing else or in the stack. -/
theorem witness_RegisterIndexAbove7Faults :
    (Instr.add 8 9).registerOperands.find? (fun a => decide (7 < a.toNat)) = some 8 ∧
    (Instr.add 7 255).registerOperands.find? (fun a => decide (7 < a.toNat)) = some 255 ∧
    Runs M (.add 7 255) (codeAt 253 [0xA0, 0x07, 0xFF]) ∧
    (∀ a ∈ (Instr.push 7).registerOperands, a.toNat ≤ 7) ∧ State.reset.runState = .running ∧
    (next? (exec (.push 7) (withR 7 0 State.reset))).map State.haltReason = some .addressFault ∧
    State.reset.haltReason ≠ .registerIndexFault := by decide
theorem witness_UnassignedOpcodeIsDecodeError :
    (codeAt 255 [0x9F]).runState = .running ∧ (codeAt 255 [0x9F]).pc.toNat ≤ 255 ∧
    (∀ o ∈ Op.all, M.byte o ≠ (codeAt 255 [0x9F]).mem.read (codeAt 255 [0x9F]).pc.toNat) ∧
    (codeAt 255 [0x9F]).haltReason ≠ .decodeError ∧ after State.haltReason (codeAt 255 [0x9F]) = some .decodeError := by decide
/-- One state for each clause of the priority order, each with a later fault waiting. -/
theorem witness_FaultsHaveOnePriorityOrder :
    255 < (codeAt 256 []).pc.toNat ∧
    (∀ o ∈ Op.all, M.byte o ≠ (codeAt 255 [0xBF]).mem.read (codeAt 255 [0xBF]).pc.toNat) ∧
    (codeAt 254 [0xA0, 0x08]).mem.read (codeAt 254 [0xA0, 0x08]).pc.toNat = M.byte .add ∧
    255 < (codeAt 254 [0xA0, 0x08]).pc.toNat + 2 ∧ (codeAt 254 [0xA0, 0x08]).pc.toNat + 1 ≤ 255 ∧
    CodeAt M (.call 8) (withR 7 0 (codeAt 254 [0x50, 0x08])) ∧
    (Instr.call 8).registerOperands.find? (fun a => decide (7 < a.toNat)) = some 8 ∧
    CodeAt M (.call (regByte 1)) (withR 7 0 (codeAt 254 [0x50, 0x01])) ∧ (withR 7 0 (codeAt 254 [0x50, 0x01])).sp = 0 ∧
    CodeAt M (.call (regByte 1)) (codeAt 254 [0x50, 0x01]) ∧ (codeAt 254 [0x50, 0x01]).sp ≠ 0 ∧
    CodeAt M (.push (regByte 7)) (withR 7 0 (codeAt 9 [0x45, 0x07])) ∧
    CodeAt M (.pop (regByte 7)) (withByte 244 255 (codeAt 9 [0x46, 0x07])) ∧
    CodeAt M .ret (withR 7 255 (codeAt 9 [0x11])) := by decide
/-- A fault with an opcode, at the last cell, and the FETCH fault, without one. -/
theorem witness_FaultsArePrecise :
    after State.faulted (codeAt 255 [0xFF]) = some true ∧
    after State.faulted (State.reset.setPc 256) = some true := by decide
theorem witness_StepsOnlyWhileRunning :
    State.reset.runState = .running ∧ (State.reset.halt .haltInstruction).runState = .halted := by decide
/-- A HALT, a fault, and a step that goes on. -/
theorem witness_HaltedInExactlyTwoWays :
    after (fun t => (t.runState, t.haltReason)) (codeAt 255 [0x01]) = some (.halted, .haltInstruction) ∧
    after (fun t => (t.runState, t.haltReason)) (codeAt 256 []) = some (.halted, .addressFault) ∧
    after State.runState (codeAt 0 [0x47, 0x00]) = some .running := by decide
/-- A HALT at 255; a run still Running and one Halted after one unit of fuel. -/
theorem witness_LoopEndsAfterHaltStep :
    Fetches M (codeAt 255 [0x01]) .halt [] ∧ (runLoop M 1 (codeAt 0 [0x47, 0x00])).runState = .running ∧
    (runLoop M 1 (codeAt 255 [0x01])).runState = .halted := by decide
theorem witness_ExitStatusTellsCleanEnd :
    after State.exitStatus (codeAt 0 [0x47, 0x00]) = some none ∧
    after State.exitStatus (codeAt 255 [0x01]) = some (some .success) ∧
    after State.exitStatus (codeAt 255 [0xFF]) = some (some .failure) := by decide
theorem witness_OnlyCompareWritesFlags :
    after (fun t => (t.flags, t.faulted)) (codeAt 253 [0xA7, 0x00, 0x00]) =
      some ({ E := true, L := false, G := false }, false) ∧
    (codeAt 253 [0xA7, 0x00, 0x00]).flags ≠ { E := true, L := false, G := false } := by decide
theorem witness_LessAndGreaterAreNeverRead : after State.pc (withE (codeAt 0 [0x55, 0x07])) = some 244 := by decide
theorem witness_StatusAndOutputAreNeverRead : after State.out (codeAt 0 [0x47, 0x07]) = some [244] := by decide
theorem witness_OutputOnlyGrows : after State.out (codeAt 254 [0x47, 0x07]) = some [244] := by decide
/-- Each form of each frame answers a next state, with a register operand of 7 and with one of 8. -/
theorem witness_frames :
    [Instr.loadImmediate 7 1, .add 7 7, .multiply 8 7, .compare 7 7, .printRegister 7, .halt, .jump 7, .jumpIfEqual 7,
     .jumpIfNotEqual 8, .push 7, .call 7, .push 8, .pop 7, .ret, .pop 8].map
      (fun i => (next? (exec i State.reset)).map State.faulted) =
    [some false, some false, some true, some false, some false, some false, some false, some false,
     some true, some false, some false, some true, some false, some false, some true] := by decide
/-- The stored address of a push that completes, and one that faults. -/
theorem witness_StoringInstructionsFrame :
    (State.reset.decSp).toOption.map State.sp = some 243 ∧ ((withR 7 0 State.reset).decSp).toOption = none ∧
    State.reset.faulted = false := by decide
theorem witness_PushThenPopRestores : (withR 7 1 State.reset).mem.wf = true ∧ (withR 7 1 State.reset).sp ≠ 0 := by decide
/-- At 253, SP = 1, the target holding RETURN. -/
theorem witness_CallThenReturnComesBack :
    (withR 7 1 (withByte 24 0x11 (withR 1 24 (codeAt 253 [0x50, 0x01])))).mem.wf = true ∧
    Fetches M (withR 7 1 (withByte 24 0x11 (withR 1 24 (codeAt 253 [0x50, 0x01])))) .call [regByte 1] ∧
    (withR 7 1 (withByte 24 0x11 (withR 1 24 (codeAt 253 [0x50, 0x01])))).sp ≠ 0 ∧
    after (fun t => t.mem.read t.pc.toNat) (withR 7 1 (withByte 24 0x11 (withR 1 24 (codeAt 253 [0x50, 0x01])))) =
      some (M.byte .ret) := by decide
/-- One push from SP = 1 and from 0; one pop from SP = 254 and from 255. -/
theorem witness_StackDepthIsBoundedBySp :
    (withR 7 1 State.reset).runState = .running ∧ [(2 : RegIdx)].length ≤ (withR 7 1 State.reset).sp.toNat ∧
    (withR 7 0 State.reset).sp.toNat < [(2 : RegIdx)].length ∧ (∀ r ∈ [(2 : RegIdx)], r ≠ 7) ∧
    [(2 : RegIdx)].length ≤ 255 - (withR 7 254 State.reset).sp.toNat ∧
    255 - (withR 7 255 State.reset).sp.toNat < [(2 : RegIdx)].length := by decide
/-- A push onto the next opcode at the top of memory, of HALT's byte and of SP itself; one onto each of its own two bytes. -/
theorem witness_PushedByteIsTheNextOpcode :
    let last (r : RegIdx) := withR 7 255 (withR 2 0x01 (codeAt 252 [0x45, regByte r, 0xFF]))
    let own (sp : Byte) := withR 7 sp (codeAt 240 [0x45, 0x02])
    (∀ r ∈ [(2 : RegIdx), 7], (last r).mem.wf = true ∧ (last r).sp ≠ 0 ∧ Fetches M (last r) .push [regByte r] ∧
      ((last r).sp - 1).toNat = (last r).pc.toNat + 2) ∧
    (last 2).reg 2 = M.byte .halt ∧
    Fetches M (own 241) .push [regByte 2] ∧ ((own 241).sp - 1).toNat = (own 241).pc.toNat ∧
    Fetches M (own 242) .push [regByte 2] ∧ ((own 242).sp - 1).toNat = (own 242).pc.toNat + 1 := by decide
/-- The same for CALL: R7 jumps to the pushed byte; a CALL at 253 through R2 with the same target; its own two bytes. -/
theorem witness_PushedByteIsTheNextOpcode_call :
    let top (r : RegIdx) := withR 7 255 (withR 2 254 (codeAt 0 [0x50, regByte r]))
    let own (sp : Byte) := withR 7 sp (codeAt 253 [0x50, 0x02])
    (∀ r ∈ [(2 : RegIdx), 7], (top r).mem.wf = true ∧ Fetches M (top r) .call [regByte r] ∧
      (if r = 7 then (top r).sp - 1 else (top r).reg r) = (top r).sp - 1) ∧
    Fetches M (own 254) .call [regByte 2] ∧ ((own 254).sp - 1).toNat = (own 254).pc.toNat ∧
    Fetches M (own 255) .call [regByte 2] ∧ ((own 255).sp - 1).toNat = (own 255).pc.toNat + 1 ∧
    (own 255).pc.toNat + 2 ≤ 255 := by decide
theorem witness_StepKeepsTheInvariant :
    (codeAt 253 [0xA0, 0x07, 0x07]).Inv ∧ after State.pc (codeAt 253 [0xA0, 0x07, 0x07]) = some 256 ∧
    (codeAt 255 [0xFF]).Inv ∧ after State.faulted (codeAt 255 [0xFF]) = some true := by decide
/-- The empty image and one byte past the memory's size. -/
theorem witness_LoadPlacesTheImage :
    ([] : List Byte).length ≤ 256 ∧ (List.replicate 256 (1 : Byte)).length ≤ 256 ∧
    256 < (List.replicate 257 (1 : Byte)).length := by
  rw [List.length_replicate, List.length_replicate]; decide
theorem witness_resets :
    (State.afterReset [0x01] defaultInitParams).toOption.isSome = true := by simp [State.afterReset, Except.toOption]
theorem witness_CanonicalMemoriesAreEqualWhenReadEqual :
    Memory.wf [(255, 1)] = true ∧ Memory.wf (Memory.write (Memory.write [] 255 2) 255 1) = true ∧
    ∀ a, a ≤ 255 → Memory.read [(255, 1)] a = Memory.read (Memory.write (Memory.write [] 255 2) 255 1) a := by
  refine ⟨by decide, by decide, fun a _ => rfl⟩

end Sys2Proof.Tests
end

/-! ### The encoding: the opcode byte's bits, and the bytes no instruction can have (30_encoding.md R71, R72, R80) -/

namespace Sys2Proof

open Machine

/-- The mask 0xC0 clears only bits that the shift by 6 drops. -/
theorem mask_shiftRight_six (op : Byte) : (op &&& 0xC0) >>> 6 = op >>> 6 := by
  have hmask : (0xC0 : Byte) >>> 6 = (BitVec.allOnes 8) >>> 6 := by decide
  rw [BitVec.ushiftRight_and_distrib, hmask, ← BitVec.ushiftRight_and_distrib, BitVec.and_allOnes]

/-- The operand count is the number in bits 7-6 (30_encoding.md R71). -/
theorem opcodeCount_eq_div (op : Byte) : opcodeCount op = op.toNat / 64 := by
  rw [opcodeCount, mask_shiftRight_six, BitVec.toNat_ushiftRight, Nat.shiftRight_eq_div_pow]

/-- The PC-sets-itself bit is bit 4 (30_encoding.md R73). -/
theorem opcodeSetsPc_iff_div (op : Byte) : opcodeSetsPc op = true ↔ op.toNat / 16 % 2 = 1 := by
  rw [opcodeSetsPc, BitVec.getLsbD, Nat.testBit_eq_decide_div_mod_eq, decide_eq_true_iff]

/-- No instruction has more than two operands (30_encoding.md R75 (b)). -/
theorem Op.operandCount_le_two (o : Op) : o.operandCount ≤ 2 := by cases o <;> decide

/-- No instruction's opcode byte has bits 7-6 = 11, since they would count three operands (30_encoding.md R72). -/
theorem OpcodeMap.byte_lt_C0 (m : OpcodeMap) (o : Op) : (m.byte o).toNat < 0xC0 := by
  have hcount : (m.byte o).toNat / 64 = o.operandCount := (opcodeCount_eq_div _).symm.trans (m.count_eq o)
  have hle := o.operandCount_le_two
  omega

/-- A Running block whose byte at pc the decoder refuses enters DecodeError with that byte (40_execution_loop.md R103). -/
theorem Machine.stepWith_of_decodeOpcode_none {m : OpcodeMap} {s : State} (hr : s.runState = .running)
    (hpc : s.pc.toNat ≤ 255) (hd : decodeOpcode m (s.mem.read s.pc.toNat) = none) :
    stepWith m s = .next (s.faultEntry .decodeError (some (s.mem.read s.pc.toNat))) := by
  obtain ⟨-, -, -, hfault⟩ := nextOpcodeIs_read (m := m) hr hpc
  exact hfault (decodeOpcode_none.mp hd)

/-- Settles O1: the bit facts hold of every byte, and an `OpcodeMap` makes them the instruction's own on assigned bytes. -/
theorem decoderReadsOpcodeByte : Obligations.DecoderReadsOpcodeByte := by
  intro m op
  refine ⟨opcodeCount_eq_div op, congrArg (· + 1) (opcodeCount_eq_div op), opcodeSetsPc_iff_div op, ?_,
    decodeOpcode_none.mpr⟩
  rintro o rfl
  refine ⟨?_, m.count_eq o⟩
  rw [decodeOpcode_byte, opcodeLength, m.count_eq, m.setsPc_eq]

/-- Settles O3: a byte from 0xC0 up would give its instruction three operands, so the decoder refuses it. -/
theorem bytesFromC0AreDecodeErrors : Obligations.BytesFromC0AreDecodeErrors := by
  intro m op hop
  have hnone : decodeOpcode m op = none := by
    refine decodeOpcode_none.mpr fun o ho => ?_
    have hlt := m.byte_lt_C0 o
    rw [ho] at hlt
    omega
  refine ⟨hnone, ?_⟩
  rintro s hr hpc rfl
  exact stepWith_of_decodeOpcode_none hr hpc hnone

end Sys2Proof

/-! ### The execution loop: handlers, pc advance, halting and the loop under fuel (40_execution_loop.md R100 to R114) -/

namespace Sys2Proof.Machine

variable {m : OpcodeMap} {s t : State} {i : Instr}

/-! #### What a handler does to pc -/

/-- A handler whose instruction does not set pc itself never writes pc, its faults included (40_execution_loop.md R114). -/
theorem exec_pc_of_not_setsPc (h : exec i s = .next t) (hset : i.op.setsPc = false) : t.pc = s.pc := by
  cases exec_effect h with
  | indexFault | spDecrement | spIncrement | returnAddress => rfl
  | halt | loadImmediate | printRegister | multiply | add | push | pop | compare => rfl
  | call | ret | jump | jumpIfEqual | jumpIfNotEqual => cases hset

@[simp] theorem State.branch_pc (s : State) (taken : Bool) (target : Byte) :
    (s.branch taken target).pc = if taken then target.zeroExtend 9 else s.pc + 2 := by
  cases taken <;> rfl

theorem State.branch_sameStatus (s : State) (taken : Bool) (target : Byte) :
    SameStatus s (s.branch taken target) := by
  cases taken <;> exact ⟨rfl, rfl, rfl⟩

theorem exec_jump (r : RegIdx) (s : State) : exec (.jump (regByte r)) s = .next (s.jumpTo (s.reg r)) := by
  simp [exec, execJump]

theorem exec_jumpIfEqual (r : RegIdx) (s : State) :
    exec (.jumpIfEqual (regByte r)) s = .next (s.branch s.flags.E (s.reg r)) := by
  simp [exec, execJumpIfEqual]

theorem exec_jumpIfNotEqual (r : RegIdx) (s : State) :
    exec (.jumpIfNotEqual (regByte r)) s = .next (s.branch (!s.flags.E) (s.reg r)) := by
  simp [exec, execJumpIfNotEqual]

/-- A CALL that does not fault jumps to the register as the push leaves it (44_control_flow.md R191). -/
theorem exec_call_pc {r : RegIdx} (h : exec (.call (regByte r)) s = .next t) (hf : t.faulted = false) :
    t.pc = (t.reg r).zeroExtend 9 := by
  simp only [exec, execCall, withReg_regByte] at h
  rcases s.push_cases (s.pc.toNat + 2) with ⟨-, hd⟩ | ⟨-, -, hd⟩ | ⟨-, -, hd⟩
  · rw [hd] at h; cases h; simp at hf
  · rw [hd] at h; cases h; simp at hf
  · rw [hd] at h; cases h; rfl

/-- A RETURN that does not fault jumps to the byte at SP (44_control_flow.md R192). -/
theorem exec_ret_pc (h : exec .ret s = .next t) (hf : t.faulted = false) : t.pc = (s.load s.sp).zeroExtend 9 := by
  cases exec_effect h with
  | indexFault | spDecrement | spIncrement | returnAddress => simp at hf
  | ret => rfl

/-! #### The pc advance -/

/-- The PC-advance FSM changes pc alone. -/
theorem State.advancePc_eq (s : State) (op : Byte) : s.advancePc op = { s with pc := (s.advancePc op).pc } := by
  unfold State.advancePc; split <;> rfl

theorem State.advancePc_of_faulted (op : Byte) (h : s.faulted = true) : s.advancePc op = s := by
  simp [State.advancePc, h]

theorem State.advancePc_of_setsPc {op : Byte} (h : opcodeSetsPc op = true) : s.advancePc op = s := by
  simp [State.advancePc, h]

theorem State.advancePc_of_not_setsPc {op : Byte} (hf : s.faulted = false) (h : opcodeSetsPc op = false) :
    s.advancePc op = s.setPc (s.pc + BitVec.ofNat 9 (opcodeLength op)) := by
  simp [State.advancePc, hf, h]

/-- The instruction at pc ends at an address up to 255, so its length added to pc gives at most 256 (R107). -/
theorem Runs.pc_add_length (h : Runs m i s) : s.pc.toNat + opcodeLength (m.byte i.op) ≤ 256 := by
  obtain ⟨-, hpc, -⟩ := (runs_iff_fetches i).mp h
  rw [Instr.operandBytes_length] at hpc
  rw [opcodeLength, m.count_eq]
  omega

theorem Runs.opcodeAtPc (h : Runs m i s) : s.opcodeAtPc = some (m.byte i.op) := by
  obtain ⟨-, hpc, hop, -⟩ := (runs_iff_fetches i).mp h
  rw [State.opcodeAtPc_of_le (by omega), hop]

/-! #### The register-index check -/

/-- A register operand list whose first byte above 7 is `b` faults with `b`, if the check of the later operands does where
the first one names a register (40_execution_loop.md R105). -/
theorem withReg_of_find? {α : Type} {a b : Byte} {as : List Byte} {k : RegIdx → Except Cause α}
    (h : (a :: as).find? (fun a => decide (7 < a.toNat)) = some b)
    (hk : ∀ r, as.find? (fun a => decide (7 < a.toNat)) = some b → k r = .error (.registerIndexFault b)) :
    withReg a k = .error (.registerIndexFault b) := by
  by_cases ha : 7 < a.toNat
  · rw [List.find?_cons_of_pos (by simpa using ha)] at h
    cases h
    exact withReg_of_ge ha k
  · rw [List.find?_cons_of_neg (by simpa using ha)] at h
    rw [withReg_of_lt (by omega)]
    exact hk _ h

/-- An instruction with one register operand above 7 enters that fault. -/
theorem commit_withReg_of_find? {a b : Byte} {k : RegIdx → Except Cause State}
    (h : [a].find? (fun a => decide (7 < a.toNat)) = some b) :
    commit s (withReg a k) = .next (s.faultEntry (.registerIndexFault b) s.opcodeAtPc) := by
  rw [withReg_of_find? h nofun, commit_error]

/-- An instruction with two register operands enters the fault of the first one above 7. -/
theorem commit_withReg_withReg_of_find? {a₁ a₂ b : Byte} {k : RegIdx → RegIdx → Except Cause State}
    (h : [a₁, a₂].find? (fun a => decide (7 < a.toNat)) = some b) :
    commit s (withReg a₁ fun r => withReg a₂ (k r)) =
      .next (s.faultEntry (.registerIndexFault b) s.opcodeAtPc) := by
  rw [withReg_of_find? h fun _ h₂ => withReg_of_find? h₂ nofun, commit_error]

/-- The first register operand above 7 is the instruction's fault, whatever its handler would do (R105). -/
theorem exec_of_find? {b : Byte} (s : State) (h : i.registerOperands.find? (fun a => decide (7 < a.toNat)) = some b) :
    exec i s = .next (s.faultEntry (.registerIndexFault b) s.opcodeAtPc) := by
  cases i with
  | halt | ret => cases h
  | loadImmediate | printRegister | push | pop | call | jump | jumpIfEqual | jumpIfNotEqual =>
    exact commit_withReg_of_find? h
  | multiply | add | compare => exact commit_withReg_withReg_of_find? h

/-! #### What a handler and a step do to the status -/

/-- A handler enters a fault (never a decode error, and a register-index fault only for one of its operands above 7), or is
HALT's, or leaves run_state, halt_reason and diag alone (60_exceptions.md R220). -/
theorem exec_status (h : exec i s = .next t) :
    (∃ c, t = s.faultEntry c s.opcodeAtPc ∧ c ≠ .decodeError ∧
      ∀ b, c = .registerIndexFault b → b ∈ i.registerOperands ∧ 8 ≤ b.toNat) ∨
    (i = .halt ∧ t = s.halt .haltInstruction) ∨ SameStatus s t := by
  cases exec_effect h with
  | indexFault _ b hb hmem => exact .inl ⟨_, rfl, nofun, fun _ hc => by cases hc; exact ⟨hmem, hb⟩⟩
  | spDecrement | spIncrement | returnAddress => exact .inl ⟨_, rfl, nofun, nofun⟩
  | halt => exact .inr (.inl ⟨rfl, rfl⟩)
  | loadImmediate | printRegister | multiply | add | push | pop | call | ret | compare | jump =>
    exact .inr (.inr ⟨rfl, rfl, rfl⟩)
  | jumpIfEqual | jumpIfNotEqual => exact .inr (.inr (s.branch_sameStatus _ _))

theorem exec_next (i : Instr) (s : State) : ∃ t, exec i s = .next t := by
  obtain ⟨r, hr⟩ := exec_commits i s
  rw [hr]
  exact commit_next r

/-- HALT has no operands: it is fetched exactly where its opcode lies at pc. -/
theorem fetches_halt_iff : Fetches m s .halt [] ↔
    s.runState = .running ∧ s.pc.toNat ≤ 255 ∧ s.mem.read s.pc.toNat = m.byte .halt := by
  simp [Fetches]

/-- HALT's step completes, its pc advance included (40_execution_loop.md R109). -/
theorem stepWith_halt (h : Fetches m s .halt []) :
    stepWith m s = .next { s with runState := .halted, haltReason := .haltInstruction, pc := s.pc + 1 } := by
  have hadv : (s.halt .haltInstruction).advancePc (m.byte .halt) =
      (s.halt .haltInstruction).setPc (s.pc + BitVec.ofNat 9 (opcodeLength (m.byte .halt))) :=
    State.advancePc_of_not_setsPc rfl (m.setsPc_eq .halt)
  rw [opcodeLength, m.count_eq] at hadv
  rw [stepWith_fetch_ok h.1 (State.fetch_of_fetches rfl h) rfl, hadv]
  rfl

/-- A fetch raises DecodeError only where the byte at pc is unassigned (40_execution_loop.md R103). -/
theorem State.fetch_decodeError {f : FetchFault} (hf : s.fetch m = .error f) (hc : f.cause = .decodeError) :
    ∀ o, m.byte o ≠ s.mem.read s.pc.toNat := by
  rcases s.fetch_cases m with ⟨-, he⟩ | ⟨-, hno, -⟩ | ⟨_, -, -, -, he⟩ | ⟨_, _, -, -, -, -, he⟩
  · rw [he] at hf; cases hf; cases hc
  · exact hno
  · rw [he] at hf; cases hf; cases hc
  · rw [he] at hf; cases hf

/-- A fetch that succeeds answers an instruction whose opcode lies at pc (40_execution_loop.md R102, R103). -/
theorem State.fetch_ok_opcode {f : Fetched} (hf : s.fetch m = .ok f) :
    s.pc.toNat ≤ 255 ∧ s.mem.read s.pc.toNat = m.byte f.instr.op := by
  rcases s.fetch_cases m with ⟨-, he⟩ | ⟨-, -, he⟩ | ⟨_, -, -, -, he⟩ | ⟨o, bs, hpc, hop, -, -, he⟩
  · rw [he] at hf; cases hf
  · rw [he] at hf; cases hf
  · rw [he] at hf; cases hf
  · rw [he] at hf; cases hf
    rw [assemble_op]
    exact ⟨by omega, hop⟩

/-- A step enters a fault (a decode error only where the byte at pc is unassigned), or is HALT's, or leaves run_state,
halt_reason and diag alone (40_execution_loop.md R111). -/
theorem stepWith_status (h : stepWith m s = .next t) :
    (∃ c op, t = s.faultEntry c op ∧ (c = .decodeError → ∀ o, m.byte o ≠ s.mem.read s.pc.toNat)) ∨
    Fetches m s .halt [] ∨ SameStatus s t := by
  obtain ⟨hr, ⟨f, hf, rfl⟩ | ⟨f, u, hf, hu, rfl⟩⟩ := stepWith_cases h
  · exact .inl ⟨f.cause, f.opcode, rfl, State.fetch_decodeError hf⟩
  · rcases exec_status hu with ⟨c, rfl, hc, -⟩ | ⟨hi, -⟩ | hsame
    · exact .inl ⟨c, s.opcodeAtPc, State.faultEntry_advancePc .., fun h => absurd h hc⟩
    · obtain ⟨hpc, hop⟩ := State.fetch_ok_opcode hf
      rw [hi] at hop
      exact .inr (.inl (fetches_halt_iff.mpr ⟨hr, hpc, hop⟩))
    · exact .inr (.inr (by simpa [SameStatus] using hsame))

theorem Cause.haltReason_cases (c : Cause) :
    c.haltReason = .decodeError ∨ c.haltReason = .addressFault ∨ c.haltReason = .registerIndexFault := by
  cases c <;> simp [Cause.haltReason]

/-! #### The loop -/

/-- A Running block always takes a step (40_execution_loop.md R100). -/
theorem stepWith_running (m : OpcodeMap) (h : s.runState = .running) : ∃ t, stepWith m s = .next t := by
  cases hf : s.fetch m with
  | error f => exact ⟨_, stepWith_fetch_error h hf⟩
  | ok f =>
    obtain ⟨u, hu⟩ := exec_next f.instr s
    exact ⟨_, stepWith_fetch_ok h hf hu⟩

theorem runLoop_halted (m : OpcodeMap) (h : s.runState = .halted) (n : Nat) : runLoop m n s = s := by
  cases n with
  | zero => rfl
  | succ n => simp [runLoop, stepWith_halted h]

theorem runLoop_succ (h : stepWith m s = .next t) (n : Nat) : runLoop m (n + 1) s = runLoop m n t := by
  simp [runLoop, h]

/-- The loop's fuel can be spent in two runs, one after the other. -/
theorem runLoop_add (m : OpcodeMap) (n k : Nat) (s : State) :
    runLoop m (n + k) s = runLoop m k (runLoop m n s) := by
  induction n generalizing s with
  | zero => rw [Nat.zero_add, runLoop]
  | succ n ih =>
    cases hr : s.runState with
    | halted => simp only [runLoop_halted m hr]
    | running =>
      obtain ⟨t, ht⟩ := stepWith_running m hr
      rw [Nat.add_right_comm, runLoop_succ ht, runLoop_succ ht, ih]

/-- Every reset that is not refused ends Running (70_reset_and_hazards.md R252). -/
theorem State.afterReset_runState {image : List Byte} {p : Config.InitParams}
    (h : State.afterReset image p = .ok s) : s.runState = .running := by
  unfold State.afterReset at h
  split at h
  · cases h
  · cases h; rfl

end Sys2Proof.Machine

namespace Sys2Proof

open Machine

/-- Settles O9: the step is the handler's state with pc advanced, and where bit 4 is clear the handler left pc alone. -/
theorem pcAdvanceComesFromOpcodeBits : Obligations.PcAdvanceComesFromOpcodeBits := by
  intro m s u i hruns hu
  refine ⟨_, stepWith_of_runs hruns hu, u.advancePc_eq _, fun hf hbit => ?_, fun _ hbit => ?_,
    State.advancePc_of_faulted _⟩
  · have hset : opcodeSetsPc (m.byte i.op) = false := by
      rw [Bool.eq_false_iff, ne_eq, opcodeSetsPc_iff_div]
      omega
    have hpc : u.pc = s.pc := exec_pc_of_not_setsPc hu ((m.setsPc_eq _).symm.trans hset)
    have hle := hruns.pc_add_length
    have hlen : opcodeLength (m.byte i.op) = (m.byte i.op).toNat / 64 + 1 := congrArg (· + 1) (opcodeCount_eq_div _)
    rw [State.advancePc_of_not_setsPc hf hset, State.setPc_pc, hpc, BitVec.toNat_add, BitVec.toNat_ofNat]
    omega
  · rw [State.advancePc_of_setsPc ((opcodeSetsPc_iff_div _).mpr hbit)]

/-- Settles O10, by the effects of the eight handlers that leave pc, and by the results of the five that write it. -/
theorem handlersKeepThePcContract : Obligations.HandlersKeepThePcContract := by
  refine ⟨fun i s t hset h => exec_pc_of_not_setsPc h hset, fun r s t hf => ?_⟩
  refine ⟨fun h => exec_call_pc h hf, fun h => exec_ret_pc h hf, fun h => ?_, fun h => ?_, fun h => ?_⟩
  · rw [exec_jump] at h; cases h; rfl
  · rw [exec_jumpIfEqual] at h; cases h; exact s.branch_pc _ _
  · rw [exec_jumpIfNotEqual] at h; cases h
    rw [State.branch_pc]
    cases s.flags.E <;> rfl

/-- Settles O24: the check comes before the handler, and no handler raises the fault by itself. -/
theorem registerIndexAbove7Faults : Obligations.RegisterIndexAbove7Faults := by
  refine ⟨fun m i b s hb => ⟨exec_of_find? s hb, fun hruns => ?_⟩, fun i s t hall _ h hs => ?_, fun r v s => ?_⟩
  · have hstep := stepWith_of_runs hruns (exec_of_find? s hb)
    rw [State.faultEntry_advancePc, hruns.opcodeAtPc] at hstep
    exact ⟨_, hstep, ⟨rfl, rfl, rfl, rfl, rfl⟩, rfl, rfl⟩
  · rcases exec_status h with ⟨c, rfl, -, hc⟩ | ⟨-, rfl⟩ | ⟨-, hreason, -⟩
    · cases c with
      | decodeError | addressFault => nofun
      | registerIndexFault b =>
        obtain ⟨hmem, hge⟩ := hc b rfl
        have hle := hall b hmem
        omega
    · nofun
    · rwa [hreason]
  · simp [exec, execLoadImmediate, immediate]

/-- Settles O25: the fetch refuses the byte before it looks at operands, and nothing else raises a decode error. -/
theorem unassignedOpcodeIsDecodeError : Obligations.UnassignedOpcodeIsDecodeError := by
  intro m s hr hpc
  refine ⟨fun hno => stepWith_of_decodeOpcode_none hr hpc (decodeOpcode_none.mpr hno), fun t h hs ht => ?_⟩
  rcases stepWith_status h with ⟨c, op, rfl, hdecode⟩ | hhalt | ⟨-, hreason, -⟩
  · cases c with
    | decodeError => exact hdecode rfl
    | addressFault | registerIndexFault => cases ht
  · rw [stepWith_halt hhalt] at h
    cases h; cases ht
  · exact absurd (hreason.symm.trans ht) hs

/-- Settles O28: every fetch and every handler answers, and a Halted block takes no step whatever the fuel. -/
theorem stepsOnlyWhileRunning : Obligations.StepsOnlyWhileRunning := by
  refine ⟨fun m s => ⟨stepWith_running m, fun h => ⟨fun t ht => ?_, runLoop_halted m h⟩⟩,
    fun _ _ _ => State.afterReset_runState⟩
  rw [stepWith_halted h] at ht
  cases ht

/-- Settles O29: a step that is neither a fault entry nor HALT's keeps the run_state it started from. -/
theorem haltedInExactlyTwoWays : Obligations.HaltedInExactlyTwoWays := by
  intro m s t h
  obtain ⟨hr, -⟩ := stepWith_cases h
  have hhalts : Fetches m s .halt [] → t.runState = .halted ∧ t.haltReason = .haltInstruction := by
    intro hhalt
    rw [stepWith_halt hhalt] at h
    cases h
    exact ⟨rfl, rfl⟩
  refine ⟨⟨fun ht => ?_, ?_⟩, fun hpc hop => hhalts (fetches_halt_iff.mpr ⟨hr, hpc, hop⟩)⟩
  · rcases stepWith_status h with ⟨c, op, rfl, -⟩ | hhalt | ⟨hrun, -, -⟩
    · exact .inr ⟨c, op, rfl, c.haltReason_cases⟩
    · obtain ⟨-, hpc, hop⟩ := fetches_halt_iff.mp hhalt
      exact .inl ⟨hpc, hop, (hhalts hhalt).2⟩
    · rw [ht, hr] at hrun
      cases hrun
  · rintro (⟨hpc, hop, -⟩ | ⟨c, op, rfl, -⟩)
    · exact (hhalts (fetches_halt_iff.mpr ⟨hr, hpc, hop⟩)).1
    · rfl

/-- Settles O30: HALT's step leaves a Halted state, which the rest of the fuel keeps; in general the loop's fuel adds up. -/
theorem loopEndsAfterHaltStep : Obligations.LoopEndsAfterHaltStep := by
  refine ⟨fun m s n h => ?_, fun m s t n k => ⟨runLoop_add m n k s, ?_, ?_⟩⟩
  · have hloop : runLoop m (n + 1) s =
        { s with runState := .halted, haltReason := .haltInstruction, pc := s.pc + 1 } := by
      rw [runLoop_succ (stepWith_halt h), runLoop_halted m rfl]
    obtain ⟨-, hpc, -⟩ := fetches_halt_iff.mp h
    refine ⟨hloop, ?_⟩
    rw [hloop]
    exact BitVec.toNat_add_of_lt (Nat.lt_of_le_of_lt (Nat.add_le_add_right hpc 1) (by decide))
  · rintro rfl hr
    obtain ⟨u, hu⟩ := stepWith_running m hr
    exact ⟨u, hu, by rw [runLoop_add, runLoop_succ hu, runLoop]⟩
  · rintro rfl hr
    rw [runLoop_add, runLoop_halted m hr]

end Sys2Proof

/-! ### Faults: the order in which a step meets them, and that nothing else happens (60_exceptions.md R226 to R228) -/

namespace Sys2Proof.Machine

variable {m : OpcodeMap} {s t : State} {i : Instr}

/-! #### The fetch's own faults -/

/-- The opcode could not be fetched exactly where pc is above 255 (10_state.md R33). -/
theorem State.opcodeAtPc_eq_none_iff : s.opcodeAtPc = none ↔ 255 < s.pc.toNat := by
  by_cases hpc : s.pc.toNat ≤ 255
  · simp [State.opcodeAtPc_of_le hpc, hpc]
  · have hgt := Nat.not_le.mp hpc
    simp [State.opcodeAtPc, State.memRead_error _ hgt, Except.toOption, hgt]

/-- A fetch above 255 raises FETCH, whatever memory holds (40_execution_loop.md R102). -/
theorem State.fetch_of_pc_gt (m : OpcodeMap) (hpc : 255 < s.pc.toNat) :
    s.fetch m = .error { cause := .addressFault .fetch s.pc.toNat, opcode := none } := by
  simp [State.fetch, State.memRead_error _ hpc]

/-- Where the opcode's last operand would lie above 255, the fetch raises OPERAND at the first address there, 256
(40_execution_loop.md R104). -/
theorem State.fetch_of_operand_gt {o : Op} (hpc : s.pc.toNat ≤ 255) (hop : s.mem.read s.pc.toNat = m.byte o)
    (hgt : 255 < s.pc.toNat + o.operandCount) :
    s.fetch m = .error { cause := .addressFault .operand 256, opcode := some (m.byte o) } := by
  have hsame : ∀ p, s.mem.read s.pc.toNat = m.byte p → p = o := fun p hp => m.injective p o (hp.symm.trans hop)
  rcases s.fetch_cases m with ⟨hpc', -⟩ | ⟨-, hno, -⟩ | ⟨p, -, hp, -, hf⟩ | ⟨p, _, hle, hp, -⟩
  · omega
  · exact absurd hop.symm (hno o)
  · rwa [hsame p hp] at hf
  · rw [hsame p hp] at hle
    omega

/-- A fetch that faults records the byte at pc, and its fault is FETCH exactly where pc is above 255
(60_exceptions.md R222). -/
theorem State.fetch_error_cause {f : FetchFault} (hf : s.fetch m = .error f) :
    f.opcode = s.opcodeAtPc ∧ (255 < s.pc.toNat ↔ ∃ v, f.cause = .addressFault .fetch v) := by
  rcases s.fetch_cases m with ⟨hpc, he⟩ | ⟨hpc, -, he⟩ | ⟨o, hpc, hop, -, he⟩ | ⟨_, _, -, -, -, -, he⟩
  · rw [he] at hf; cases hf
    exact ⟨(State.opcodeAtPc_eq_none_iff.mpr hpc).symm, by simp [hpc]⟩
  · rw [he] at hf; cases hf
    exact ⟨(State.opcodeAtPc_of_le hpc).symm, by simp [hpc]⟩
  · rw [he] at hf; cases hf
    exact ⟨by rw [State.opcodeAtPc_of_le hpc, hop], by simp [hpc]⟩
  · rw [he] at hf; cases hf

/-! #### The handlers' own faults -/

theorem State.decSp_of_sp_zero (h : s.sp = 0) : s.decSp = .error (.addressFault .spDecrement (-1)) := if_pos h

theorem State.incSp_of_sp_255 (h : s.sp = 255) : s.incSp = .error (.addressFault .spIncrement 256) := if_pos h

/-- A push at SP = 0 faults before it looks at the value (43_stack.md R170). -/
theorem State.push_of_sp_zero (v : Nat) (h : s.sp = 0) : s.push v = .error (.addressFault .spDecrement (-1)) := by
  simp [State.push, State.decSp_of_sp_zero h]

/-- A push of a value above 255 faults once SP is decremented (43_stack.md R170). -/
theorem State.push_of_gt {v : Nat} (h : s.sp ≠ 0) (hv : 255 < v) :
    s.push v = .error (.addressFault .returnAddress v) := by
  rcases s.push_cases v with ⟨hz, -⟩ | ⟨-, -, he⟩ | ⟨-, hle, -⟩
  · exact absurd hz h
  · exact he
  · omega

/-- SP after a register write, where the register may be SP itself (10_state.md R22). -/
theorem State.setReg_sp (r : RegIdx) (v : Byte) : (s.setReg r v).sp = if r = 7 then v else s.sp :=
  (s.setReg_reg r v Config.stackPointer).trans (if_congr eq_comm rfl rfl)

/-- A CALL raises its push's fault (44_control_flow.md R191). -/
theorem exec_call_of_push_error (r : RegIdx) {c : Cause} (h : s.push (s.pc.toNat + 2) = .error c) :
    exec (.call (regByte r)) s = .next (s.faultEntry c s.opcodeAtPc) := by
  simp [exec, execCall, h]

/-- PUSH at SP = 0 faults (43_stack.md R172). -/
theorem exec_push_of_sp_zero (r : RegIdx) (h : s.sp = 0) :
    exec (.push (regByte r)) s = .next (s.faultEntry (.addressFault .spDecrement (-1)) s.opcodeAtPc) := by
  simp [exec, execPush, State.decSp_of_sp_zero h]

/-- POP faults where SP, read after the register is written, is 255 (43_stack.md R173). -/
theorem exec_pop_of_sp_255 (r : RegIdx) (h : (s.setReg r (s.load s.sp)).sp = 255) :
    exec (.pop (regByte r)) s = .next (s.faultEntry (.addressFault .spIncrement 256) s.opcodeAtPc) := by
  simp [exec, execPop, State.incSp_of_sp_255 h]

/-- RETURN at SP = 255 faults (44_control_flow.md R192). -/
theorem exec_ret_of_sp_255 (h : s.sp = 255) :
    exec .ret s = .next (s.faultEntry (.addressFault .spIncrement 256) s.opcodeAtPc) := by
  simp [exec, execRet, State.popValue, State.incSp_of_sp_255 h]

/-- A handler that ends in a fault does nothing but fault entry, with the byte at pc and never the FETCH fault
(60_exceptions.md R226). -/
theorem exec_faulted (hr : s.runState = .running) (h : exec i s = .next t) (hf : t.faulted = true) :
    ∃ c, t = s.faultEntry c s.opcodeAtPc ∧ ∀ v, c ≠ .addressFault .fetch v := by
  have hsame : ¬ SameStatus s t := fun ⟨hrun, _⟩ => by
    rw [State.not_faulted_of_running (hrun.trans hr)] at hf
    cases hf
  cases exec_effect h with
  | indexFault | spDecrement | spIncrement | returnAddress => exact ⟨_, rfl, nofun⟩
  | halt => cases hf
  | loadImmediate | printRegister | multiply | add | push | pop | call | ret | compare | jump =>
    exact absurd ⟨rfl, rfl, rfl⟩ hsame
  | jumpIfEqual | jumpIfNotEqual => exact absurd (s.branch_sameStatus _ _) hsame

/-! #### The step's faults -/

/-- The step of an instruction whose handler faults enters that fault with the instruction's opcode. -/
theorem stepWith_of_runs_fault (h : Runs m i s) {c : Cause} (he : exec i s = .next (s.faultEntry c s.opcodeAtPc)) :
    stepWith m s = .next (s.faultEntry c (some (m.byte i.op))) := by
  rw [stepWith_of_runs h he, State.faultEntry_advancePc, h.opcodeAtPc]

/-- A step that ends in a fault does nothing but fault entry, with the byte at pc, which is missing exactly for the FETCH
fault (60_exceptions.md R226). -/
theorem stepWith_faulted (h : stepWith m s = .next t) (hf : t.faulted = true) :
    ∃ c, t = s.faultEntry c s.opcodeAtPc ∧ (s.opcodeAtPc = none ↔ ∃ v, c = .addressFault .fetch v) := by
  rw [State.opcodeAtPc_eq_none_iff]
  obtain ⟨hr, ⟨f, hfetch, rfl⟩ | ⟨f, u, hfetch, hu, rfl⟩⟩ := stepWith_cases h
  · obtain ⟨hop, hcause⟩ := State.fetch_error_cause hfetch
    exact ⟨f.cause, by rw [hop], hcause⟩
  · have huf : u.faulted = true := by simpa [State.faulted] using hf
    obtain ⟨c, rfl, hc⟩ := exec_faulted hr hu huf
    obtain ⟨hpc, -⟩ := State.fetch_ok_opcode hfetch
    exact ⟨c, State.faultEntry_advancePc .., iff_of_false (Nat.not_lt.mpr hpc) fun ⟨v, hv⟩ => hc v hv⟩

end Sys2Proof.Machine

namespace Sys2Proof

open Machine

/-- Settles O26: the fetch meets its three faults in order, then the register check comes before the handler, whose stack
operation checks SP first. -/
theorem faultsHaveOnePriorityOrder : Obligations.FaultsHaveOnePriorityOrder := by
  intro m s hr
  refine ⟨fun hpc => stepWith_fetch_error hr (State.fetch_of_pc_gt m hpc),
    fun hpc hno => stepWith_of_decodeOpcode_none hr hpc (decodeOpcode_none.mpr hno), ?_,
    fun i b hcode hb => stepWith_of_runs_fault ⟨hr, hcode⟩ (exec_of_find? s hb), fun r => ⟨?_, ?_, ?_, ?_, ?_⟩⟩
  · intro o k hpc hop hk hcount hgt hfirst
    have h256 : s.pc.toNat + k = 256 := by
      by_cases hk1 : k = 1
      · omega
      · have hprev := hfirst (k - 1) (by omega) (by omega)
        omega
    rw [h256]
    exact stepWith_fetch_error hr (State.fetch_of_operand_gt hpc hop (by omega))
  · exact fun hcode hsp => stepWith_of_runs_fault ⟨hr, hcode⟩ (exec_call_of_push_error r (State.push_of_sp_zero _ hsp))
  · exact fun hcode hsp hpc => stepWith_of_runs_fault ⟨hr, hcode⟩ (exec_call_of_push_error r (State.push_of_gt hsp hpc))
  · exact fun hcode hsp => stepWith_of_runs_fault ⟨hr, hcode⟩ (exec_push_of_sp_zero r hsp)
  · exact fun hcode hsp =>
      stepWith_of_runs_fault ⟨hr, hcode⟩ (exec_pop_of_sp_255 r ((State.setReg_sp r _).trans hsp))
  · exact fun hcode hsp => stepWith_of_runs_fault ⟨hr, hcode⟩ (exec_ret_of_sp_255 hsp)

/-- Settles O27: the state after a faulting step is fault entry of the state before it, and a Halted block takes no step. -/
theorem faultsArePrecise : Obligations.FaultsArePrecise := by
  intro m s t h hf
  obtain ⟨c, rfl, hnone⟩ := stepWith_faulted h hf
  refine ⟨c, rfl, rfl, rfl, State.opcodeAtPc_of_le, hnone, ⟨rfl, rfl, rfl, rfl, rfl⟩, fun u hu => ?_⟩
  rw [stepWith_halted rfl] at hu
  cases hu

end Sys2Proof

/-! ### The load: what each cell reads after a reset (70_reset_and_hazards.md R251) -/

namespace Sys2Proof.Machine

variable {image : List Byte} {p : Config.InitParams}

theorem loadedByte_of_lt {memInit : Fin 256 → Byte} {a : Nat} (h : a < image.length) :
    loadedByte image memInit a = image[a] := by
  rw [loadedByte, List.getElem?_eq_getElem h]

theorem loadedByte_of_length_le {memInit : Fin 256 → Byte} {a : Fin 256} (h : image.length ≤ a.val) :
    loadedByte image memInit a.val = memInit a := by
  rw [loadedByte, List.getElem?_eq_none h]
  exact dif_pos a.isLt

theorem State.afterReset_of_length_gt (h : 256 < image.length) : State.afterReset image p = .error .imageTooLong :=
  if_pos h

/-- An image that fits is accepted, and every cell then reads its loaded byte. -/
theorem State.afterReset_of_length_le (h : image.length ≤ 256) :
    ∃ s, State.afterReset image p = .ok s ∧ ∀ a, a < 256 → s.mem.read a = loadedByte image p.memInit a := by
  refine ⟨_, if_neg (Nat.not_lt.mpr h), fun a ha => ?_⟩
  have hread := Memory.read_build (loadedByte image p.memInit) 256 0 a (Nat.le_refl 256)
  exact hread.trans (if_pos ⟨Nat.zero_le a, by omega⟩)

end Sys2Proof.Machine

namespace Sys2Proof

open Machine

/-- Settles O48: the reset builds memory from the loaded bytes, which are the image's below its length and MEM_INIT's from
there on. -/
theorem loadPlacesTheImage : Obligations.LoadPlacesTheImage := by
  refine fun image p => ⟨fun hfits => ?_, State.afterReset_of_length_gt⟩
  obtain ⟨s, hreset, hread⟩ := State.afterReset_of_length_le (p := p) hfits
  refine ⟨s, hreset, fun i hi => ?_, fun i hi => ?_⟩
  · exact (hread i (by omega)).trans (loadedByte_of_lt hi)
  · exact (hread i.val i.isLt).trans (loadedByte_of_length_le hi)

end Sys2Proof

/-! ### The encoding and the decoder agree (30_encoding.md R70, R75 to R80) -/

namespace Sys2Proof

open Machine

/-! #### One opcode byte -/

/-- The decoder accepts exactly the bytes of the map (30_encoding.md R80). -/
theorem decodeOpcode_isSome_iff {m : OpcodeMap} {op : Byte} : (decodeOpcode m op).isSome = true ↔ ∃ o, m.byte o = op := by
  rw [← Option.ne_none_iff_isSome, ne_eq, decodeOpcode_none]
  simp

/-- The numbers below 256 whose byte the decoder accepts are the 13 opcode bytes, each listed once. -/
theorem perm_acceptedBytes (m : OpcodeMap) :
    ((List.range 256).filter fun n => (decodeOpcode m (BitVec.ofNat 8 n)).isSome).Perm
      (Op.all.map fun o => (m.byte o).toNat) := by
  have hinj : Function.Injective fun o => (m.byte o).toNat := fun i j h => m.injective i j (BitVec.eq_of_toNat_eq h)
  refine (List.perm_ext_iff_of_nodup (List.nodup_range.filter _) (List.Nodup.map hinj (by decide))).mpr fun n => ?_
  rw [List.mem_filter, List.mem_range, decodeOpcode_isSome_iff, List.mem_map]
  constructor
  · rintro ⟨hn, o, ho⟩
    exact ⟨o, o.mem_all, by rw [ho, BitVec.toNat_ofNat, Nat.mod_eq_of_lt hn]⟩
  · rintro ⟨o, -, rfl⟩
    exact ⟨(m.byte o).isLt, o, by simp⟩

/-! #### A whole instruction -/

/-- A list that begins with an instruction's opcode and has its operand bytes decodes to the instruction assembled from
them (30_encoding.md R70, R80). -/
theorem decodeWith_byte_cons {m : OpcodeMap} {o : Op} {operands rest : List Byte}
    (h : operands.length = o.operandCount) :
    decodeWith m (m.byte o :: (operands ++ rest)) = .ok (assemble o operands, rest) := by
  simp [decodeWith, decodeOpcode_byte, ← h]

/-- A list that decodes begins with the opcode of an instruction, followed by as many operand bytes as it has. -/
theorem decodeWith_ok {m : OpcodeMap} {bytes rest : List Byte} {i : Instr} (h : decodeWith m bytes = .ok (i, rest)) :
    ∃ o operands, bytes = m.byte o :: (operands ++ rest) ∧ operands.length = o.operandCount ∧ i = assemble o operands := by
  unfold decodeWith at h
  split at h
  · cases h
  · next op tail =>
    split at h
    · cases h
    · next d hd =>
      obtain ⟨hop, hcount, -, -⟩ := decodeOpcode_some hd
      split at h
      · cases h
      · next hlen =>
        cases h
        exact ⟨d.instr, tail.take d.count, by rw [hop, List.take_append_drop],
          by rw [List.length_take, ← hcount]; omega, rfl⟩

/-- Settles O5: the opcode byte decodes to its instruction, whose operand count is the number of operand bytes. -/
theorem decodeEncodeRoundTrip : Obligations.DecodeEncodeRoundTrip := by
  intro m i rest
  have h := decodeWith_byte_cons (m := m) (rest := rest) i.operandBytes_length
  rwa [assemble_operandBytes] at h

/-- Settles O6: the bytes are an opcode, as many operand bytes as it has, and the rest; assembling keeps all of them. -/
theorem decodedBytesAreTheEncoding : Obligations.DecodedBytesAreTheEncoding := by
  intro m bytes rest i h
  obtain ⟨o, operands, rfl, hlen, rfl⟩ := decodeWith_ok h
  rw [encodeWith, assemble_op, operandBytes_assemble hlen, List.cons_append]

/-- Settles O4: the bytes the decoder accepts are the 13 opcode bytes, and it refuses the others of the 256. -/
theorem illegalBytesAre243 : Obligations.IllegalBytesAre243 := by
  intro m
  have hsplit := List.length_eq_length_filter_add (l := List.range 256)
    fun n => (decodeOpcode m (BitVec.ofNat 8 n)).isSome
  rw [(perm_acceptedBytes m).length_eq, List.length_map, List.length_range] at hsplit
  simp only [Option.not_isSome] at hsplit
  have hall : Op.all.length = 13 := rfl
  omega

/-- Settles O2: the table is the default map's definition, and every byte of the list is one of its 13. -/
theorem defaultOpcodeMapIsTheTable : Obligations.DefaultOpcodeMapIsTheTable := by
  refine ⟨rfl, rfl, rfl, rfl, rfl, rfl, rfl, rfl, rfl, rfl, rfl, rfl, rfl, fun op => ?_⟩
  rw [decodeOpcode_isSome_iff]
  constructor
  · rintro ⟨o, rfl⟩
    cases o <;> decide
  · have hlisted : ∀ b ∈ ([0x01, 0x11, 0x45, 0x46, 0x47, 0x50, 0x54, 0x55, 0x56, 0x82, 0xA0, 0xA2, 0xA7] : List Byte),
        ∃ o ∈ Op.all, defaultOpcodeByte o = b := by decide
    intro hop
    obtain ⟨o, -, ho⟩ := hlisted op hop
    exact ⟨o, ho⟩

/-- Settles O7: each word is the encoding of its instruction, and 0xFF is no instruction's byte. -/
theorem writtenOutWordsDecode : Obligations.WrittenOutWordsDecode :=
  have decodes := fun i => decodeEncodeRoundTrip defaultOpcodeMap i []
  ⟨decodes (.loadImmediate 0 8), decodes (.multiply 0 1), decodes (.compare 2 3), decodes (.push 2), decodes (.call 1),
    decodes .halt, rfl⟩

/-! #### The decoded instruction is the one a step runs -/

/-- The bytes from an address, cut after any number of them, are the bytes from that address at most so many. -/
theorem Machine.State.bytesFrom_take (s : State) : ∀ n k a : Nat, (s.bytesFrom n a).take k = s.bytesFrom (min k n) a
  | 0, k, _ => by simp [State.bytesFrom]
  | n + 1, 0, _ => by simp [State.bytesFrom]
  | n + 1, k + 1, a => by
    rw [Nat.succ_min_succ, State.bytesFrom, State.bytesFrom, ← s.bytesFrom_take n k (a + 1)]
    split <;> rfl

/-- Where the code bytes at pc decode to an instruction, its bytes lie at pc (30_encoding.md R70). -/
theorem Machine.codeAt_of_decodeWith {m : OpcodeMap} {s : State} {i : Instr} {rest : List Byte}
    (h : decodeWith m s.codeBytes = .ok (i, rest)) : CodeAt m i s := by
  have hbytes : s.codeBytes = encodeWith m i ++ rest := decodedBytesAreTheEncoding m _ _ _ h
  have hlen : (encodeWith m i).length ≤ 3 := by
    have := i.op.operandCount_le_two
    rw [encodeWith, List.length_cons, Instr.operandBytes_length]
    omega
  have htake := s.bytesFrom_take 3 (encodeWith m i).length s.pc.toNat
  rw [Nat.min_eq_left hlen] at htake
  rw [CodeAt, ← htake]
  exact (congrArg (List.take _) hbytes).trans List.take_left

/-- Settles O8: the decoded instruction lies at pc, and a step of an instruction that lies there executes it. -/
theorem stepRunsTheDecodedInstruction : Obligations.StepRunsTheDecodedInstruction := by
  refine ⟨fun m s i rest hr h => ?_, fun s => rfl⟩
  obtain ⟨t, ht⟩ := exec_next i s
  rw [stepWith_of_runs ⟨hr, codeAt_of_decodeWith h⟩ ht, ht]

end Sys2Proof

/-! ### Frames: what each part of the state can become in a handler and in a step (10_state.md section 2) -/

namespace Sys2Proof.Machine

variable {m : OpcodeMap} {s t : State} {i : Instr}

/-! #### Registers -/

@[simp] theorem regOf_regByte (r : RegIdx) : regOf (regByte r) = r := by
  simp [regOf, Nat.mod_eq_of_lt r.isLt]

/-- The registers a handler may write (10_state.md section 2): the one its first operand names, and SP for the stack. -/
def writtenRegisters : Instr → List RegIdx
  | .loadImmediate reg _ | .multiply reg _ | .add reg _ => [regOf reg]
  | .push _ | .call _ | .ret => [Config.stackPointer]
  | .pop reg => [regOf reg, Config.stackPointer]
  | .halt | .printRegister _ | .compare _ _ | .jump _ | .jumpIfEqual _ | .jumpIfNotEqual _ => []

theorem State.setReg_sameRegistersBut (s : State) (r : RegIdx) (v : Byte) : SameRegistersBut [r] s (s.setReg r v) :=
  fun _ hq => s.setReg_reg_other (mt List.mem_singleton.mpr hq) v

@[simp] theorem State.branch_x (s : State) (taken : Bool) (target : Byte) : (s.branch taken target).x = s.x := by
  cases taken <;> rfl
@[simp] theorem State.branch_flags (s : State) (taken : Bool) (target : Byte) :
    (s.branch taken target).flags = s.flags := by
  cases taken <;> rfl
@[simp] theorem State.branch_mem (s : State) (taken : Bool) (target : Byte) : (s.branch taken target).mem = s.mem := by
  cases taken <;> rfl
@[simp] theorem State.branch_out (s : State) (taken : Bool) (target : Byte) : (s.branch taken target).out = s.out := by
  cases taken <;> rfl

/-- A handler leaves every register but those it writes. -/
theorem exec_sameRegistersBut (h : exec i s = .next t) : SameRegistersBut (writtenRegisters i) s t := by
  cases exec_effect h with
  | indexFault | spDecrement | spIncrement | returnAddress => exact fun _ _ => rfl
  | halt | printRegister | compare | jump => exact fun _ _ => rfl
  | jumpIfEqual | jumpIfNotEqual => exact fun q _ => congrArg (·[q]) (s.branch_x _ _)
  | loadImmediate | multiply | add =>
    rw [writtenRegisters, regOf_regByte]
    exact s.setReg_sameRegistersBut _ _
  | push | call | ret => exact s.setReg_sameRegistersBut Config.stackPointer _
  | pop r =>
    intro q hq
    rw [writtenRegisters, regOf_regByte, List.mem_cons, List.mem_singleton, not_or] at hq
    obtain ⟨hr, hsp⟩ := hq
    exact (State.setReg_reg_other _ hsp _).trans (State.setReg_reg_other _ hr _)

/-! #### Flags, memory and output -/

/-- Only COMPARE's handler writes the flags (10_state.md section 4). -/
theorem exec_flags (h : exec i s = .next t) (hi : i.op ≠ .compare) : t.flags = s.flags := by
  cases exec_effect h with
  | indexFault | spDecrement | spIncrement | returnAddress => rfl
  | halt | loadImmediate | printRegister | multiply | add | push | pop | call | ret | jump => rfl
  | jumpIfEqual | jumpIfNotEqual => exact s.branch_flags _ _
  | compare => exact absurd rfl hi

/-- A COMPARE that does not fault leaves the flags of a comparison (41_alu.md R134). -/
theorem exec_compare_flags (h : exec i s = .next t) (hi : i.op = .compare) (hf : t.faulted = false) :
    ∃ A B, t.flags = compareFlags A B := by
  cases exec_effect h with
  | indexFault | spDecrement | spIncrement | returnAddress => simp at hf
  | compare a b => exact ⟨s.reg a, s.reg b, rfl⟩
  | halt | loadImmediate | printRegister | multiply | add | push | pop | call | ret | jump | jumpIfEqual
  | jumpIfNotEqual => cases hi

/-- A comparison leaves exactly one flag true (41_alu.md R134). -/
theorem compareFlags_cases (A B : Byte) :
    compareFlags A B = { E := true, L := false, G := false } ∨ compareFlags A B = { E := false, L := true, G := false } ∨
      compareFlags A B = { E := false, L := false, G := true } := by
  unfold compareFlags
  split
  · exact .inl rfl
  · split
    · exact .inr (.inl rfl)
    · exact .inr (.inr rfl)

/-- A handler leaves memory alone, or it is PUSH's or CALL's and writes the cell at the decremented SP (43_stack.md R170). -/
theorem exec_mem (h : exec i s = .next t) :
    t.mem = s.mem ∨
      ((i.op = .push ∨ i.op = .call) ∧ s.sp ≠ 0 ∧ ∃ v, t.mem = s.mem.write (s.sp - 1).toNat v) := by
  cases exec_effect h with
  | indexFault | spDecrement | spIncrement | returnAddress => exact .inl rfl
  | halt | loadImmediate | printRegister | multiply | add | pop | ret | compare | jump => exact .inl rfl
  | jumpIfEqual | jumpIfNotEqual => exact .inl (s.branch_mem _ _)
  | push _ hsp => exact .inr ⟨.inl rfl, hsp, _, rfl⟩
  | call _ hsp => exact .inr ⟨.inr rfl, hsp, _, rfl⟩

/-- A handler that is neither PUSH's nor CALL's leaves every memory cell. -/
theorem exec_sameMemory (h : exec i s = .next t) (hi : ¬ (i.op = .push ∨ i.op = .call)) : SameMemory s t := by
  rcases exec_mem h with hmem | ⟨hstores, -⟩
  · exact fun a => congrArg (·.read a) hmem
  · exact absurd hstores hi

/-- A handler leaves the output alone, or it is PRINT_REGISTER's and appends its register's value (42_data_move.md R151). -/
theorem exec_out (h : exec i s = .next t) :
    t.out = s.out ∨ ∃ r, i = .printRegister (regByte r) ∧ t = s.emit (s.reg r) := by
  cases exec_effect h with
  | indexFault | spDecrement | spIncrement | returnAddress => exact .inl rfl
  | halt | loadImmediate | multiply | add | push | pop | call | ret | compare | jump => exact .inl rfl
  | jumpIfEqual | jumpIfNotEqual => exact .inl (s.branch_out _ _)
  | printRegister r => exact .inr ⟨r, rfl, rfl⟩

/-- A handler other than PRINT_REGISTER's leaves the output. -/
theorem exec_out_of_ne (h : exec i s = .next t) (hi : i.op ≠ .printRegister) : t.out = s.out := by
  rcases exec_out h with hout | ⟨r, rfl, -⟩
  · exact hout
  · exact absurd rfl hi

/-! #### Status -/

theorem State.faulted_of_sameStatus (h : SameStatus s t) : t.faulted = s.faulted := by
  obtain ⟨hrun, hreason, -⟩ := h
  rw [State.faulted, State.faulted, hrun, hreason]

/-- A handler that faults, from a state that no fault left, changes the status alone (60_exceptions.md R226). -/
theorem exec_sameButStatus_of_faulted (h : exec i s = .next t) (hs : s.faulted = false) (ht : t.faulted = true) :
    SameButStatus s t := by
  rcases exec_status h with ⟨c, rfl, -⟩ | ⟨-, rfl⟩ | hsame
  · exact ⟨rfl, rfl, rfl, rfl, rfl⟩
  · cases ht
  · rw [State.faulted_of_sameStatus hsame, hs] at ht
    cases ht

/-- A handler that does not fault leaves the status, unless it is HALT's. -/
theorem exec_sameStatus_of_not_faulted (h : exec i s = .next t) (hi : i.op ≠ .halt) (ht : t.faulted = false) :
    SameStatus s t := by
  rcases exec_status h with ⟨c, rfl, -⟩ | ⟨rfl, -⟩ | hsame
  · simp at ht
  · exact absurd rfl hi
  · exact hsame

/-- An instruction that is well-formed and does not use the stack does not fault: it is HALT, or leaves the status
(60_exceptions.md section 1). -/
theorem exec_status_of_wellFormed (h : exec i s = .next t) (hw : i.wellFormed = true)
    (hi : i.op ∉ [Op.push, .pop, .call, .ret]) : (i = .halt ∧ t = s.halt .haltInstruction) ∨ SameStatus s t := by
  cases exec_effect h with
  | indexFault _ b hb hmem =>
    have hlt : b.toNat < 8 := of_decide_eq_true (List.all_eq_true.mp hw b hmem)
    omega
  | spDecrement _ hop => rcases hop with hop | hop <;> simp [hop] at hi
  | spIncrement _ hop => rcases hop with hop | hop <;> simp [hop] at hi
  | returnAddress _ hop => simp [hop] at hi
  | halt => exact .inl ⟨rfl, rfl⟩
  | loadImmediate | printRegister | multiply | add | compare | jump => exact .inr ⟨rfl, rfl, rfl⟩
  | jumpIfEqual | jumpIfNotEqual => exact .inr (s.branch_sameStatus _ _)
  | push | pop | call | ret => simp [Instr.op] at hi

/-! #### A step -/

@[simp] theorem State.advancePc_faulted (s : State) (op : Byte) : (s.advancePc op).faulted = s.faulted :=
  State.faulted_of_sameStatus ⟨by simp, by simp, by simp⟩

/-- A fetch that succeeds answers the instruction that lies at pc, with its opcode byte (40_execution_loop.md R102 to R104). -/
theorem State.fetch_ok_runs {f : Fetched} (hr : s.runState = .running) (hf : s.fetch m = .ok f) :
    Runs m f.instr s ∧ f.opcode = m.byte f.instr.op := by
  obtain ⟨hpc, hop⟩ := State.fetch_ok_opcode hf
  have hle : s.pc.toNat + f.instr.op.operandCount ≤ 255 := by
    by_contra hgt
    rw [State.fetch_of_operand_gt hpc hop (by omega)] at hf
    cases hf
  obtain ⟨i, -, hruns⟩ := exists_runs hr hle hop
  have hfetch := State.fetch_of_fetches i.operandBytes_length ((runs_iff_fetches i).mp hruns)
  rw [assemble_operandBytes, hf] at hfetch
  cases hfetch
  exact ⟨hruns, rfl⟩

/-- The inversion of a step in terms of the code at pc: the fetch's fault, or the handler of the instruction that lies at pc
and the pc advance (40_execution_loop.md R101). -/
theorem stepWith_inv (h : stepWith m s = .next t) :
    (∃ f, s.fetch m = .error f ∧ t = s.faultEntry f.cause f.opcode) ∨
      ∃ i u, Runs m i s ∧ exec i s = .next u ∧ t = u.advancePc (m.byte i.op) := by
  obtain ⟨hr, hfault | ⟨f, u, hf, hu, rfl⟩⟩ := stepWith_cases h
  · exact .inl hfault
  · obtain ⟨hruns, hop⟩ := State.fetch_ok_runs hr hf
    exact .inr ⟨f.instr, u, hruns, hu, by rw [hop]⟩

/-- The opcode of the instruction that lies at pc. -/
theorem Runs.opcode (h : Runs m i s) : s.pc.toNat ≤ 255 ∧ s.mem.read s.pc.toNat = m.byte i.op := by
  obtain ⟨-, hpc, hop, -⟩ := (runs_iff_fetches i).mp h
  exact ⟨by omega, hop⟩

/-- A step leaves the output alone, or it is PRINT_REGISTER's and completes (42_data_move.md R151). -/
theorem stepWith_out (h : stepWith m s = .next t) :
    t.out = s.out ∨ ∃ r, Runs m (.printRegister (regByte r)) s ∧ t.faulted = false ∧ t.out = s.out ++ [s.reg r] := by
  rcases stepWith_inv h with ⟨f, -, rfl⟩ | ⟨i, u, hruns, hu, rfl⟩
  · exact .inl rfl
  · rcases exec_out hu with hout | ⟨r, rfl, rfl⟩
    · exact .inl ((State.advancePc_out ..).trans hout)
    · exact .inr ⟨r, hruns, (State.advancePc_faulted ..).trans (State.not_faulted_of_running hruns.1),
        State.advancePc_out ..⟩

/-- Any run of the loop keeps what was emitted and appends to it (10_state.md R37). -/
theorem runLoop_out (m : OpcodeMap) (n : Nat) (s : State) : ∃ emitted, (runLoop m n s).out = s.out ++ emitted := by
  induction n generalizing s with
  | zero => exact ⟨[], (List.append_nil _).symm⟩
  | succ n ih =>
    cases hr : s.runState with
    | halted => exact ⟨[], by rw [runLoop_halted m hr, List.append_nil]⟩
    | running =>
      obtain ⟨t, ht⟩ := stepWith_running m hr
      obtain ⟨emitted, hout⟩ := ih t
      rw [runLoop_succ ht, hout]
      rcases stepWith_out ht with hsame | ⟨r, -, -, happend⟩
      · exact ⟨emitted, by rw [hsame]⟩
      · exact ⟨s.reg r :: emitted, by rw [happend, List.append_assoc]; rfl⟩

/-! #### The exit status -/

theorem State.exitStatus_of_running (h : s.runState = .running) : s.exitStatus = none := by
  simp [State.exitStatus, State.ended, h]

theorem State.exitStatus_of_halted (h : s.runState = .halted) :
    s.exitStatus = some (if s.haltReason = .haltInstruction then .success else .failure) := by
  simp [State.exitStatus, State.ended, State.endedCleanly, h, apply_ite]

/-- Fault entry ends the run with failure (40_execution_loop.md R116). -/
theorem State.faultEntry_exitStatus (s : State) (c : Cause) (op : Option Byte) :
    (s.faultEntry c op).exitStatus = some .failure := by
  cases c <;> rfl

end Sys2Proof.Machine

namespace Sys2Proof

open Machine

/-- Settles O31: a step that ends Halted is HALT's or fault entry, and each determines the exit status. -/
theorem exitStatusTellsCleanEnd : Obligations.ExitStatusTellsCleanEnd := by
  intro m s t h
  obtain ⟨hhalted, hhalt⟩ := haltedInExactlyTwoWays m s t h
  have hclean : t.runState = .halted → t.haltReason = .haltInstruction →
      t.exitStatus = some .success ∧ t.faulted = false := by
    intro hrun hreason
    exact ⟨by rw [State.exitStatus_of_halted hrun, if_pos hreason], by simp [State.faulted, hreason]⟩
  refine ⟨State.exitStatus_of_running, fun hpc hop => ?_, fun hf => ?_, fun hrun => ?_⟩
  · obtain ⟨hrun, hreason⟩ := hhalt hpc hop
    exact (hclean hrun hreason).1
  · obtain ⟨c, rfl, -⟩ := stepWith_faulted h hf
    exact s.faultEntry_exitStatus c _
  · rcases hhalted.mp hrun with ⟨-, -, hreason⟩ | ⟨c, op, rfl, -⟩
    · obtain ⟨hexit, hf⟩ := hclean hrun hreason
      simp [hexit, hf]
    · rw [s.faultEntry_exitStatus, s.faultEntry_faulted, if_pos rfl]

/-- Settles O32: every handler commits, and what it commits is fault entry, HALT's state or one with the status kept. -/
theorem everyInstructionAnswersNext : Obligations.EveryInstructionAnswersNext := by
  intro i s
  obtain ⟨t, h⟩ := exec_next i s
  refine ⟨t, h, ?_⟩
  rcases exec_status h with ⟨c, rfl, -⟩ | ⟨-, rfl⟩ | hsame
  · exact .inl ⟨rfl, rfl, rfl, rfl, rfl, rfl⟩
  · exact .inl ⟨rfl, rfl, rfl, rfl, rfl, rfl⟩
  · exact .inr hsame

/-- Settles O33: the step's flags are its handler's, and only COMPARE's handler writes them. -/
theorem onlyCompareWritesFlags : Obligations.OnlyCompareWritesFlags := by
  intro m s t h
  rcases stepWith_inv h with ⟨f, -, rfl⟩ | ⟨i, u, hruns, hu, rfl⟩
  · exact ⟨fun hne => absurd rfl hne, fun _ _ hf => by simp at hf⟩
  · obtain ⟨hpc, hop⟩ := hruns.opcode
    rw [State.advancePc_flags, State.advancePc_faulted]
    refine ⟨fun hne => ?_, fun _ hcmp hf => ?_⟩
    · have hi : i.op = .compare := by
        by_contra hi
        exact hne (exec_flags hu hi)
      exact ⟨hpc, by rw [hop, hi]⟩
    · obtain ⟨A, B, hflags⟩ := exec_compare_flags hu (m.injective _ _ (hop.symm.trans hcmp)) hf
      rw [hflags]
      exact compareFlags_cases A B

/-- Settles O36: one step emits at most PRINT_REGISTER's value, and the loop by induction on its fuel. -/
theorem outputOnlyGrows : Obligations.OutputOnlyGrows := by
  refine ⟨fun m s t h => ?_, runLoop_out⟩
  rcases stepWith_out h with hsame | ⟨r, hruns, hf, hout⟩
  · exact .inl hsame
  · obtain ⟨-, -, hop, hoperands⟩ := (runs_iff_fetches _).mp hruns
    exact .inr ⟨hop, hf, r, hoperands 0 (Nat.zero_lt_one), hout⟩

/-- Settles O37, by the frame of each part of the state. -/
theorem registerWritersFrame : Obligations.RegisterWritersFrame := by
  intro i a b s t hi h
  have hregs : writtenRegisters i = [regOf a] := by rcases hi with rfl | rfl | rfl <;> rfl
  have hop : i.op ≠ .compare ∧ ¬ (i.op = .push ∨ i.op = .call) ∧ i.op.setsPc = false ∧ i.op ≠ .printRegister ∧
      i.op ∉ [Op.push, .pop, .call, .ret] ∧ i ≠ .halt := by
    rcases hi with rfl | rfl | rfl <;> simp [Instr.op, Op.setsPc]
  obtain ⟨hcompare, hstore, hsets, hprint, hstack, hhalt⟩ := hop
  refine ⟨hregs ▸ exec_sameRegistersBut h, exec_flags h hcompare, exec_sameMemory h hstore,
    exec_pc_of_not_setsPc h hsets, exec_out_of_ne h hprint, fun hw => ?_⟩
  exact (exec_status_of_wellFormed h hw hstack).resolve_left fun ⟨hi, _⟩ => hhalt hi

/-- Settles O38: none of the six writes a register or memory, and each other part has one writer among them. -/
theorem nonWritersFrame : Obligations.NonWritersFrame := by
  intro i s t hi h
  have hop : writtenRegisters i = [] ∧ ¬ (i.op = .push ∨ i.op = .call) ∧ i.op ∉ [Op.push, .pop, .call, .ret] := by
    cases i with
    | halt | printRegister | compare | jump | jumpIfEqual | jumpIfNotEqual => simp [writtenRegisters, Instr.op]
    | loadImmediate | multiply | add | push | pop | call | ret => simp [Instr.op] at hi
  obtain ⟨hregs, hstore, hstack⟩ := hop
  refine ⟨hregs ▸ exec_sameRegistersBut h, exec_sameMemory h hstore, exec_flags h, exec_out_of_ne h,
    exec_pc_of_not_setsPc h, fun hw hhalt => ?_, fun hw => ?_⟩
  · rcases exec_status_of_wellFormed h hw hstack with ⟨rfl, -⟩ | ⟨hrun, hreason, -⟩
    · exact absurd rfl hhalt
    · exact ⟨hrun, hreason⟩
  · rcases exec_status_of_wellFormed h hw hstack with ⟨-, rfl⟩ | ⟨-, -, hdiag⟩
    · rfl
    · exact hdiag

/-- Settles O39: both store at most at the decremented SP, which a failed decrement does not reach. -/
theorem storingInstructionsFrame : Obligations.StoringInstructionsFrame := by
  intro i a s t hi h
  have hop : writtenRegisters i = [Config.stackPointer] ∧ i.op ≠ .compare ∧ i.op ≠ .printRegister ∧ i.op ≠ .halt := by
    rcases hi with rfl | rfl <;> simp [writtenRegisters, Instr.op]
  obtain ⟨hregs, hcompare, hprint, hhalt⟩ := hop
  refine ⟨hregs ▸ exec_sameRegistersBut h, exec_flags h hcompare, exec_out_of_ne h hprint, ?_, fun u hu q hq => ?_,
    fun c hc q => ?_, exec_sameButStatus_of_faulted h, fun _ => exec_sameStatus_of_not_faulted h hhalt⟩
  · rintro rfl
    exact exec_pc_of_not_setsPc h rfl
  · rcases s.decSp_cases with ⟨-, he⟩ | ⟨-, hd⟩
    · rw [he] at hu; cases hu
    · rw [hd] at hu; cases hu
      rw [State.setSp_sp] at hq
      rcases exec_mem h with hmem | ⟨-, -, v, hmem⟩
      · rw [hmem]
      · rw [hmem, Memory.read_write_other hq]
  · rcases s.decSp_cases with ⟨hsp, -⟩ | ⟨-, hd⟩
    · rcases exec_mem h with hmem | ⟨-, hne, -⟩
      · rw [hmem]
      · exact absurd hsp hne
    · rw [hd] at hc; cases hc

/-- Settles O40, by the frame of each part of the state; neither stores, so neither changes a cell. -/
theorem poppingInstructionsFrame : Obligations.PoppingInstructionsFrame := by
  intro i a s t hi h
  have hop : i.op ≠ .compare ∧ i.op ≠ .printRegister ∧ ¬ (i.op = .push ∨ i.op = .call) ∧ i.op ≠ .halt := by
    rcases hi with rfl | rfl <;> simp [Instr.op]
  obtain ⟨hcompare, hprint, hstore, hhalt⟩ := hop
  refine ⟨?_, ?_, exec_flags h hcompare, exec_out_of_ne h hprint, exec_sameMemory h hstore,
    exec_sameButStatus_of_faulted h, fun _ => exec_sameStatus_of_not_faulted h hhalt⟩
  · rintro rfl
    exact ⟨exec_sameRegistersBut h, exec_pc_of_not_setsPc h rfl⟩
  · rintro rfl
    exact exec_sameRegistersBut h

end Sys2Proof

/-! ### The invariant: at reset, and kept by every step (10_state.md R27, R32, R33; 20_memory.md R50) -/

namespace Sys2Proof.Machine

variable {m : OpcodeMap} {s t : State} {i : Instr}

/-! #### The canonical form of memory -/

theorem Memory.wfFrom_cons_iff {lo b : Nat} {v : Byte} {rest : Memory} :
    Memory.wfFrom lo ((b, v) :: rest) = true ↔
      lo ≤ b ∧ b < 256 ∧ v ≠ Memory.unlisted ∧ Memory.wfFrom (b + 1) rest = true := by
  simp only [Memory.wfFrom, Bool.and_eq_true, decide_eq_true_eq, and_assoc]
  rfl

@[simp] theorem Memory.read_head (b : Nat) (v : Byte) (rest : Memory) : Memory.read ((b, v) :: rest) b = v := if_pos rfl

theorem Memory.read_tail {a b : Nat} (h : a ≠ b) (v : Byte) (rest : Memory) :
    Memory.read ((b, v) :: rest) a = rest.read a := if_neg h

/-- The first address a canonical memory lists tells it from one that lists nothing up to there. -/
theorem Memory.read_head_ne {lo lo' b : Nat} {v : Byte} {rest n : Memory}
    (hm : Memory.wfFrom lo ((b, v) :: rest) = true) (hn : Memory.wfFrom lo' n = true) (hb : b < lo') :
    Memory.read ((b, v) :: rest) b ≠ n.read b := by
  obtain ⟨-, -, hv, -⟩ := Memory.wfFrom_cons_iff.mp hm
  rwa [Memory.read_head, Memory.read_below hn hb]

/-- Two canonical memories from the same address up that read the same below 256 are the same list. -/
theorem Memory.eq_of_wfFrom : ∀ {m n : Memory} {lo : Nat}, Memory.wfFrom lo m = true → Memory.wfFrom lo n = true →
    (∀ a, lo ≤ a → a ≤ 255 → m.read a = n.read a) → m = n
  | [], [], _, _, _, _ => rfl
  | [], (b, v) :: rest, lo, _, hn, hread => by
    obtain ⟨hlo, hb, -, -⟩ := Memory.wfFrom_cons_iff.mp hn
    exact absurd (hread b hlo (by omega)).symm (Memory.read_head_ne (lo' := 256) hn rfl hb)
  | (b, v) :: rest, [], lo, hm, _, hread => by
    obtain ⟨hlo, hb, -, -⟩ := Memory.wfFrom_cons_iff.mp hm
    exact absurd (hread b hlo (by omega)) (Memory.read_head_ne (lo' := 256) hm rfl hb)
  | (b, v) :: rest, (b', v') :: rest', lo, hm, hn, hread => by
    obtain ⟨hlo, hb, hv, hrest⟩ := Memory.wfFrom_cons_iff.mp hm
    obtain ⟨hlo', hb', hv', hrest'⟩ := Memory.wfFrom_cons_iff.mp hn
    rcases Nat.lt_trichotomy b b' with hlt | rfl | hlt
    · have hn' := Memory.wfFrom_cons_iff.mpr ⟨Nat.le_refl b', hb', hv', hrest'⟩
      exact absurd (hread b hlo (by omega)) (Memory.read_head_ne hm hn' hlt)
    · have hhead : v = v' := by simpa using hread b hlo (by omega)
      have htail : rest = rest' := Memory.eq_of_wfFrom hrest hrest' fun a ha ha' => by
        have hne : a ≠ b := by omega
        simpa only [Memory.read_tail hne] using hread a (by omega) ha'
      rw [hhead, htail]
    · have hm' := Memory.wfFrom_cons_iff.mpr ⟨Nat.le_refl b, hb, hv, hrest⟩
      exact absurd (hread b' hlo' (by omega)).symm (Memory.read_head_ne hn hm' hlt)

/-! #### The status -/

/-- While Running the status is consistent exactly when nothing is recorded (10_state.md R32, R33). -/
theorem State.statusConsistent_of_running (h : s.runState = .running) :
    s.statusConsistent = true ↔ s.haltReason = .none ∧ s.diag = none := by
  unfold State.statusConsistent
  rw [h]
  cases s.haltReason <;> cases s.diag <;> simp

/-- Fault entry leaves a consistent status when the record it makes describes the fault (60_exceptions.md R221 to R223). -/
theorem State.faultEntry_statusConsistent {c : Cause} {op : Option Byte}
    (h : Diag.describes { pc := s.pc, opcode := op, detail := c.detail } c.haltReason s.pc = true) :
    (s.faultEntry c op).statusConsistent = true := by
  cases c <;> exact h

/-- Each fault of a fetch leaves a consistent status (40_execution_loop.md R102 to R104). -/
theorem State.fetch_error_statusConsistent {f : FetchFault} (hf : s.fetch m = .error f) :
    (s.faultEntry f.cause f.opcode).statusConsistent = true := by
  rcases s.fetch_cases m with ⟨hpc, he⟩ | ⟨-, -, he⟩ | ⟨_, hpc, -, -, he⟩ | ⟨_, _, -, -, -, -, he⟩
  · rw [he] at hf; cases hf
    exact State.faultEntry_statusConsistent (by simp [Diag.describes, Cause.detail, Cause.haltReason, hpc])
  · rw [he] at hf; cases hf
    exact State.faultEntry_statusConsistent (by simp [Diag.describes, Cause.detail, Cause.haltReason])
  · rw [he] at hf; cases hf
    exact State.faultEntry_statusConsistent (by simp [Diag.describes, Cause.detail, Cause.haltReason]; omega)
  · rw [he] at hf; cases hf

/-- The handler of the instruction at pc leaves a consistent status. -/
theorem exec_statusConsistent (hruns : Runs m i s) (hs : s.statusConsistent = true) (h : exec i s = .next t) :
    t.statusConsistent = true := by
  have hop := hruns.opcodeAtPc
  obtain ⟨hreason, hdiag⟩ := (State.statusConsistent_of_running hruns.1).mp hs
  have hsame : SameStatus s t → t.statusConsistent = true := fun ⟨hrun, hreason', hdiag'⟩ =>
    (State.statusConsistent_of_running (hrun.trans hruns.1)).mpr ⟨hreason'.trans hreason, hdiag'.trans hdiag⟩
  cases exec_effect h with
  | indexFault _ b hb =>
    exact State.faultEntry_statusConsistent (by simp [Diag.describes, Cause.detail, Cause.haltReason, hop, hb])
  | spDecrement | spIncrement =>
    exact State.faultEntry_statusConsistent (by simp [Diag.describes, Cause.detail, Cause.haltReason, hop])
  | returnAddress _ hi hpc =>
    have hlen := hruns.pc_add_length
    have hpc254 : s.pc.toNat = 254 := by
      rw [hi, opcodeLength, m.count_eq, Op.operandCount] at hlen
      omega
    exact State.faultEntry_statusConsistent (by simp [Diag.describes, Cause.detail, Cause.haltReason, hop, hpc254])
  | halt => simp [State.statusConsistent, hdiag]
  | loadImmediate | printRegister | multiply | add | push | pop | call | ret | compare | jump =>
    exact hsame ⟨rfl, rfl, rfl⟩
  | jumpIfEqual | jumpIfNotEqual => exact hsame (s.branch_sameStatus _ _)

/-- A consistent status has a diagnostic only after a fault (10_state.md R33). -/
theorem State.diag_of_not_faulted (h : s.statusConsistent = true) (hf : s.faulted = false) : s.diag = none := by
  unfold State.statusConsistent at h
  split at h
  · next hdiag => exact hdiag
  · next hdiag => exact hdiag
  · next hrun hdiag =>
    cases hreason : s.haltReason with
    | none | haltInstruction => simp [hreason, Diag.describes] at h
    | decodeError | addressFault | registerIndexFault => simp [State.faulted, hrun, hreason] at hf
  · cases h

/-- With no diagnostic the status is that of a Running block or that of a HALT, wherever pc is (10_state.md R32). -/
theorem State.statusConsistent_of_diag_none (h : s.diag = none) : s.statusConsistent = true ↔
    s.runState = .running ∧ s.haltReason = .none ∨ s.runState = .halted ∧ s.haltReason = .haltInstruction := by
  unfold State.statusConsistent
  rw [h]
  cases s.runState <;> cases s.haltReason <;> simp

/-- The PC-advance FSM keeps the status consistent: it moves pc only where there is no diagnostic to name it. -/
theorem State.advancePc_statusConsistent (op : Byte) (h : s.statusConsistent = true) :
    (s.advancePc op).statusConsistent = true := by
  cases hf : s.faulted with
  | true => rwa [State.advancePc_of_faulted op hf]
  | false =>
    have hdiag := State.diag_of_not_faulted h hf
    rw [State.statusConsistent_of_diag_none ((s.advancePc_diag op).trans hdiag)]
    simpa using (State.statusConsistent_of_diag_none hdiag).mp h

/-! #### pc -/

/-- A byte is at most 255 as a pc (44_control_flow.md R196). -/
theorem pcOfByte_le (v : Byte) : (v.zeroExtend 9).toNat ≤ 255 := by
  have := v.isLt
  simp; omega

/-- A handler leaves pc, or sets it to a byte, or moves it by 2 (40_execution_loop.md R114). -/
theorem exec_pc (h : exec i s = .next t) : t.pc = s.pc ∨ t.pc.toNat ≤ 255 ∨ t.pc = s.pc + 2 := by
  have hbranch : ∀ taken v, (s.branch taken v).pc.toNat ≤ 255 ∨ (s.branch taken v).pc = s.pc + 2 := by
    rintro (_ | _) v
    · exact .inr rfl
    · exact .inl (pcOfByte_le v)
  cases exec_effect h with
  | indexFault | spDecrement | spIncrement | returnAddress => exact .inl rfl
  | halt | loadImmediate | printRegister | multiply | add | push | pop | compare => exact .inl rfl
  | call | ret | jump => exact .inr (.inl (pcOfByte_le _))
  | jumpIfEqual | jumpIfNotEqual => exact .inr (hbranch _ _)

/-- The step of an instruction that lies at pc leaves pc at most 258 (10_state.md R27). -/
theorem exec_advancePc_pc_le (hruns : Runs m i s) (h : exec i s = .next t) :
    (t.advancePc (m.byte i.op)).pc.toNat ≤ 258 := by
  have hpc := hruns.opcode.1
  have hlen := hruns.pc_add_length
  have hmove : ∀ k : Nat, s.pc.toNat + k ≤ 258 → (s.pc + BitVec.ofNat 9 k).toNat ≤ 258 := by
    intro k hk
    rw [BitVec.toNat_add, BitVec.toNat_ofNat]
    omega
  cases hset : i.op.setsPc with
  | true =>
    rw [State.advancePc_of_setsPc ((m.setsPc_eq _).trans hset)]
    rcases exec_pc h with hsame | hbyte | hnext
    · rw [hsame]; omega
    · omega
    · rw [hnext]; exact hmove 2 (by omega)
  | false =>
    rw [State.advancePc_pc, exec_pc_of_not_setsPc h hset]
    split
    · omega
    · exact hmove _ (by omega)

/-! #### A step -/

/-- A handler keeps memory canonical: a store lies at a byte address (20_memory.md R53). -/
theorem exec_mem_wf (h : exec i s = .next t) (hw : s.mem.wf = true) : t.mem.wf = true := by
  rcases exec_mem h with hmem | ⟨-, -, v, hmem⟩
  · rwa [hmem]
  · rw [hmem]
    exact Memory.wf_write _ v (s.sp - 1).isLt hw

/-- A step keeps the invariant, whether the fetch faults or an instruction runs. -/
theorem stepWith_keeps_inv (hs : s.Inv) (h : stepWith m s = .next t) : t.Inv := by
  obtain ⟨hwf, hpc, hstatus⟩ := hs
  rcases stepWith_inv h with ⟨f, hf, rfl⟩ | ⟨i, u, hruns, hu, rfl⟩
  · exact ⟨hwf, hpc, State.fetch_error_statusConsistent hf⟩
  · exact ⟨by rw [State.advancePc_mem]; exact exec_mem_wf hu hwf, exec_advancePc_pc_le hruns hu,
      State.advancePc_statusConsistent _ (exec_statusConsistent hruns hstatus hu)⟩

/-! #### Reset -/

/-- The state an accepted reset gives (70_reset_and_hazards.md R251, R252). -/
theorem State.afterReset_ok {image : List Byte} {p : Config.InitParams} (h : State.afterReset image p = .ok s) :
    s = { x := regsAtRunStart p.regInit, pc := pcInit
          flags := { E := p.flagsInit.1, L := p.flagsInit.2.1, G := p.flagsInit.2.2 }
          mem := Memory.build (loadedByte image p.memInit) Config.memorySize 0
          runState := .running, haltReason := .none, diag := none, out := [] } := by
  unfold State.afterReset at h
  split at h
  · cases h
  · cases h; rfl

/-- SP is the last of the registers at run start, and the others are `REG_INIT` (70_reset_and_hazards.md R252). -/
theorem regsAtRunStart_get (regInit : Fin 7 → Byte) (r : RegIdx) :
    (regsAtRunStart regInit)[r] = if h : r.val < 7 then regInit ⟨r.val, h⟩ else spInit := by
  simp [regsAtRunStart]

/-- A memory in which every cell is to read as an unlisted one does lists nothing. -/
theorem Memory.build_unlisted {f : Nat → Byte} (hf : ∀ a, f a = Memory.unlisted) :
    ∀ n lo : Nat, Memory.build f n lo = []
  | 0, _ => rfl
  | n + 1, lo => by rw [Memory.build, Memory.cons, if_pos (hf lo), Memory.build_unlisted hf n]

/-- `State.reset` is the reset with the empty image and the default parameters (log entries 2, 3, 4). -/
theorem State.afterReset_default : State.afterReset [] defaultInitParams = .ok State.reset := by
  have hbyte : ∀ a, loadedByte [] defaultInitParams.memInit a = Memory.unlisted := by
    intro a
    rw [loadedByte, List.getElem?_nil]
    exact dite_eq_right_iff.mpr fun _ => rfl
  have hmem := Memory.build_unlisted hbyte Config.memorySize 0
  have hregs : regsAtRunStart defaultInitParams.regInit = State.reset.x := by decide
  rw [State.afterReset, if_neg (by decide), hmem, hregs]
  rfl

end Sys2Proof.Machine

namespace Sys2Proof

open Machine

/-- Settles O47: a fetch fault changes the status alone; a handler stores at a byte address, moves pc by at most 3, and
records a fault only as its kind allows. -/
theorem stepKeepsTheInvariant : Obligations.StepKeepsTheInvariant :=
  ⟨fun _ _ _ => stepWith_keeps_inv, fun _ _ => stepWith_keeps_inv⟩

/-- Settles O46: the load builds a canonical memory, and run start records nothing. -/
theorem everyResetMeetsTheInvariant : Obligations.EveryResetMeetsTheInvariant := by
  intro image p s h
  rw [State.afterReset_ok h]
  exact ⟨Memory.wfFrom_build _ 256 0 (Nat.le_refl 256), Nat.zero_le 258, rfl⟩

/-- Settles O45: the reset state is one of the accepted resets. -/
theorem resetMeetsTheInvariant : Obligations.ResetMeetsTheInvariant :=
  everyResetMeetsTheInvariant [] defaultInitParams State.reset State.afterReset_default

/-- Settles O49: run start sets each part of the state, and the default parameters give `State.reset`. -/
theorem runStartSetsTheLoopState : Obligations.RunStartSetsTheLoopState := by
  refine ⟨fun image p s h => ?_, State.afterReset_default⟩
  rw [State.afterReset_ok h]
  refine ⟨regsAtRunStart_get p.regInit Config.stackPointer, rfl, fun r hr => ?_, rfl, rfl, rfl, rfl, rfl⟩
  exact (regsAtRunStart_get p.regInit r).trans (dif_pos hr)

/-- Settles O50: two canonical memories are compared head by head, each head being the first address that is listed. -/
theorem canonicalMemoriesAreEqualWhenReadEqual : Obligations.CanonicalMemoriesAreEqualWhenReadEqual :=
  fun _ _ hm hn hread => Memory.eq_of_wfFrom hm hn fun a _ => hread a

end Sys2Proof

/-! ### Each instruction's result: what its handler answers, and what its step answers (41_alu.md to 44_control_flow.md) -/

namespace Sys2Proof.Machine

variable {m : OpcodeMap} {s t : State} {i : Instr}

/-! #### From a handler to its step -/

/-- A handler that leaves pc to the loop and goes on: its step also moves pc past the instruction's bytes
(40_execution_loop.md R107). -/
theorem result_advancing (he : exec i s = .next t) (hset : i.op.setsPc = false) (hr : t.runState = s.runState) :
    exec i s = .next t ∧ (Fetches m s i.op i.operandBytes →
      stepWith m s = .next (t.setPc (s.pc + BitVec.ofNat 9 (i.op.operandCount + 1)))) := by
  refine ⟨he, fun hfetch => ?_⟩
  have hf : t.faulted = false := State.not_faulted_of_running (hr.trans hfetch.1)
  rw [stepWith_of_runs ((runs_iff_fetches i).mpr hfetch) he,
    State.advancePc_of_not_setsPc hf ((m.setsPc_eq _).trans hset), exec_pc_of_not_setsPc he hset, opcodeLength, m.count_eq]

/-- A handler that sets pc itself: its step answers the same (40_execution_loop.md R107). -/
theorem result_settingPc (he : exec i s = .next t) (hset : i.op.setsPc = true) :
    exec i s = .next t ∧ (Fetches m s i.op i.operandBytes → stepWith m s = .next t) := by
  refine ⟨he, fun hfetch => ?_⟩
  rw [stepWith_of_runs ((runs_iff_fetches i).mpr hfetch) he, State.advancePc_of_setsPc ((m.setsPc_eq _).trans hset)]

/-- A handler that faults: its step enters the same fault, with the instruction's opcode (60_exceptions.md R226). -/
theorem result_faulting {c : Cause} (he : exec i s = .next (s.faultEntry c s.opcodeAtPc)) :
    exec i s = .next (s.faultEntry c s.opcodeAtPc) ∧ (Fetches m s i.op i.operandBytes →
      stepWith m s = .next (s.faultEntry c (some (m.byte i.op)))) :=
  ⟨he, fun hfetch => stepWith_of_runs_fault ((runs_iff_fetches i).mpr hfetch) he⟩

/-! #### What each handler answers -/

theorem exec_loadImmediate (r : RegIdx) (v : Byte) (s : State) :
    exec (.loadImmediate (regByte r) v) s = .next (s.setReg r v) := by
  simp [exec, execLoadImmediate, immediate]

theorem exec_printRegister (r : RegIdx) (s : State) :
    exec (.printRegister (regByte r)) s = .next (s.emit (s.reg r)) := by
  simp [exec, execPrintRegister]

theorem exec_add (a b : RegIdx) (s : State) :
    exec (.add (regByte a) (regByte b)) s = .next (s.setReg a (alu .add (s.reg a) (s.reg b))) := by
  simp [exec, execAdd]

theorem exec_multiply (a b : RegIdx) (s : State) :
    exec (.multiply (regByte a) (regByte b)) s = .next (s.setReg a (alu .mul (s.reg a) (s.reg b))) := by
  simp [exec, execMultiply]

theorem exec_compare (a b : RegIdx) (s : State) :
    exec (.compare (regByte a) (regByte b)) s = .next (s.setFlags (compareFlags (s.reg a) (s.reg b))) := by
  simp [exec, execCompare]

/-- The flags of a comparison are the three comparisons of unsigned numbers (41_alu.md R134). -/
theorem compareFlags_eq (A B : Byte) : compareFlags A B =
    { E := decide (A.toNat = B.toNat), L := decide (A.toNat < B.toNat), G := decide (B.toNat < A.toNat) } := by
  unfold compareFlags
  rcases Nat.lt_trichotomy A.toNat B.toNat with h | h | h
  · simp [Flags.clear, h, h.ne, h.le]
  · simp [Flags.clear, h]
  · simp [Flags.clear, h, h.ne', Nat.not_lt.mpr h.le]

/-- The state after a push of `v` that completes: SP lower by one, and `v` in the cell there (43_stack.md R170). -/
def State.pushed (s : State) (v : Byte) : State := (s.setSp (s.sp - 1)).store (s.sp - 1) v

/-- The state after a pop into register `r` that completes, `q` being SP before the increment (43_stack.md R171, R173). -/
def State.popped (s : State) (r : RegIdx) (q : Byte) : State := (s.setReg r (s.load s.sp)).setSp (q + 1)

/-- A register read after SP's decrement: SP itself is the decremented one (92_eei_decisions.md D6). -/
theorem State.setSp_pred_reg (s : State) (r : RegIdx) :
    (s.setSp (s.sp - 1)).reg r = if r = 7 then s.sp - 1 else s.reg r :=
  s.setSp_reg (s.sp - 1) r

theorem exec_push_of_sp_ne_zero (r : RegIdx) (h : s.sp ≠ 0) :
    exec (.push (regByte r)) s = .next (s.pushed (if r = 7 then s.sp - 1 else s.reg r)) := by
  rw [← s.setSp_pred_reg]
  rcases s.decSp_cases with ⟨hz, -⟩ | ⟨-, hd⟩
  · exact absurd hz h
  · simp [exec, execPush, hd, State.pushed]

theorem exec_pop_of_sp_ne_255 (r : RegIdx) {q : Byte} (hq : (s.setReg r (s.load s.sp)).sp = q) (h : q ≠ 255) :
    exec (.pop (regByte r)) s = .next (s.popped r q) := by
  subst hq
  rcases (s.setReg r (s.load s.sp)).incSp_cases with ⟨hz, -⟩ | ⟨-, hd⟩
  · exact absurd hz h
  · simp [exec, execPop, hd, State.popped]

theorem exec_call_of_pushed (r : RegIdx) (h : s.sp ≠ 0) (hpc : s.pc.toNat + 2 ≤ 255) :
    exec (.call (regByte r)) s =
      .next ((s.pushed (BitVec.ofNat 8 (s.pc.toNat + 2))).jumpTo (if r = 7 then s.sp - 1 else s.reg r)) := by
  rw [← s.setSp_pred_reg]
  rcases s.push_cases (s.pc.toNat + 2) with ⟨hz, -⟩ | ⟨-, hgt, -⟩ | ⟨-, -, hd⟩
  · exact absurd hz h
  · omega
  · simp [exec, execCall, hd, State.pushed]

theorem exec_ret_of_sp_ne_255 (h : s.sp ≠ 255) :
    exec .ret s = .next ((s.setSp (s.sp + 1)).jumpTo (s.load s.sp)) := by
  rcases s.popValue_cases with ⟨hz, -⟩ | ⟨-, hd⟩
  · exact absurd hz h
  · simp [exec, execRet, hd]

end Sys2Proof.Machine

namespace Sys2Proof

open Machine

/-- Settles O11: HALT's handler is the halt alone, and its step is that and the pc advance. -/
theorem haltStopsTheLoop : Obligations.HaltStopsTheLoop :=
  fun _ _ => ⟨rfl, stepWith_halt⟩

/-- Settles O12: the handler writes the register, and the step advances pc by its length. -/
theorem loadImmediateSetsRegister : Obligations.LoadImmediateSetsRegister :=
  fun _ r v s => result_advancing (exec_loadImmediate r v s) rfl rfl

/-- Settles O13: the handler emits the register, and the step advances pc by its length. -/
theorem printRegisterEmitsValue : Obligations.PrintRegisterEmitsValue :=
  fun _ r s => result_advancing (exec_printRegister r s) rfl rfl

/-- Settles O14: the ALU's sum is the sum mod 256 that the statement writes out. -/
theorem addWritesSumMod256 : Obligations.AddWritesSumMod256 := by
  rintro m a b s t rfl
  exact result_advancing (exec_add a b s) rfl rfl

/-- Settles O15: the ALU's product is the product mod 256 that the statement writes out. -/
theorem multiplyWritesProductMod256 : Obligations.MultiplyWritesProductMod256 := by
  rintro m a b s t rfl
  exact result_advancing (exec_multiply a b s) rfl rfl

/-- Settles O16: the handler's flags are the three unsigned comparisons. -/
theorem compareSetsFlagsUnsigned : Obligations.CompareSetsFlagsUnsigned := by
  rintro m a b s t rfl
  rw [← compareFlags_eq]
  exact result_advancing (exec_compare a b s) rfl rfl

/-- Settles O17, by the two cases of the decrement. -/
theorem pushStoresBelowStackTop : Obligations.PushStoresBelowStackTop := by
  rintro m r s t rfl
  exact ⟨fun hsp => result_advancing (exec_push_of_sp_ne_zero r hsp) rfl rfl,
    fun hsp => result_faulting (exec_push_of_sp_zero r hsp)⟩

/-- Settles O18, by the two cases of the increment, of SP as the register's write leaves it. -/
theorem popLoadsStackTop : Obligations.PopLoadsStackTop := by
  rintro m r s t q rfl rfl
  have hq := State.setReg_sp (s := s) r (s.load s.sp)
  exact ⟨fun hne => result_advancing (exec_pop_of_sp_ne_255 r hq hne) rfl rfl,
    fun h255 => result_faulting (exec_pop_of_sp_255 r (hq.trans h255))⟩

/-- Settles O19, by the three cases of the push. -/
theorem callPushesReturnAddress : Obligations.CallPushesReturnAddress := by
  rintro m r s t rfl
  exact ⟨fun hsp hpc => result_settingPc (exec_call_of_pushed r hsp hpc) rfl,
    fun hsp => result_faulting (exec_call_of_push_error r (State.push_of_sp_zero _ hsp)),
    fun hsp hpc => result_faulting (exec_call_of_push_error r (State.push_of_gt hsp hpc))⟩

/-- Settles O20, by the two cases of the increment. -/
theorem returnPopsPc : Obligations.ReturnPopsPc := by
  rintro m s t rfl
  exact ⟨fun hsp => result_settingPc (exec_ret_of_sp_ne_255 hsp) rfl, fun hsp => result_faulting (exec_ret_of_sp_255 hsp)⟩

/-- Settles O21: the handler jumps, and the step leaves pc to it. -/
theorem jumpSetsPcToRegister : Obligations.JumpSetsPcToRegister := by
  rintro m r s t rfl
  exact result_settingPc (exec_jump r s) rfl

/-- Settles O22, by the two values of E. -/
theorem jumpIfEqualBranchesOnE : Obligations.JumpIfEqualBranchesOnE := by
  rintro m r s t rfl
  have he := exec_jumpIfEqual r s
  cases hE : s.flags.E <;> rw [hE] at he <;> exact result_settingPc he rfl

/-- Settles O23, by the two values of E. -/
theorem jumpIfNotEqualBranchesOnE : Obligations.JumpIfNotEqualBranchesOnE := by
  rintro m r s t rfl
  have he := exec_jumpIfNotEqual r s
  cases hE : s.flags.E <;> rw [hE] at he <;> exact result_settingPc he rfl

end Sys2Proof

/-! ### The stack: what a push leaves for a pop, a RETURN or a fetch (43_stack.md section 4; 44_control_flow.md section 7) -/

namespace Sys2Proof.Machine

variable {m : OpcodeMap} {s t : State}

/-! #### A push that completed -/

@[simp] theorem State.pushed_sp (s : State) (v : Byte) : (s.pushed v).sp = s.sp - 1 := s.setSp_sp _

/-- A push leaves every register but SP. -/
theorem State.pushed_reg (s : State) (v : Byte) {q : RegIdx} (hq : q ≠ Config.stackPointer) :
    (s.pushed v).reg q = s.reg q :=
  s.setReg_reg_other hq _

/-- The cell below the old top holds the pushed value (43_stack.md R170). -/
theorem State.pushed_load (v : Byte) (h : s.mem.wf = true) : (s.pushed v).load (s.sp - 1) = v :=
  ((s.setSp (s.sp - 1)).store_read (s.sp - 1) v (s.sp - 1).toNat h).trans (if_pos rfl)

/-- A push leaves every cell but the one below the old top. -/
theorem State.pushed_sameMemoryBut (s : State) (v : Byte) : SameMemoryBut (s.sp - 1).toNat s (s.pushed v) :=
  fun _ ha => Memory.read_write_other ha v s.mem

/-- Where only SP differs, SP set back gives back the register file. -/
theorem State.setSp_x_of_sameRegistersBut (h : SameRegistersBut [Config.stackPointer] s t) : (t.setSp s.sp).x = s.x := by
  refine State.x_ext fun q => ?_
  rw [State.setSp_reg]
  split
  · next hq => rw [hq]; rfl
  · next hq => exact h q (mt List.mem_singleton.mp hq)

/-- A decremented SP can be incremented again. -/
theorem pred_ne_255 {b : Byte} (h : b ≠ 0) : b - 1 ≠ 255 := by bv_omega

/-- A POP of the register just pushed completes and restores the register file (43_stack.md section 4). -/
theorem exec_pop_after_push (r : RegIdx) {v : Byte} (hv : v = if r = 7 then s.sp - 1 else s.reg r)
    (hw : s.mem.wf = true) (hsp : s.sp ≠ 0) :
    exec (.pop (regByte r)) (s.pushed v) = .next ((s.pushed v).popped r (s.sp - 1)) ∧
      ((s.pushed v).popped r (s.sp - 1)).x = s.x := by
  have hload : (s.pushed v).load (s.pushed v).sp = v := by rw [State.pushed_sp, State.pushed_load v hw]
  have hq : ((s.pushed v).setReg r v).sp = s.sp - 1 := by
    rw [State.setReg_sp, State.pushed_sp, hv]
    split <;> rfl
  have hregs : SameRegistersBut [Config.stackPointer] s ((s.pushed v).setReg r v) := by
    intro q hmem
    have hne : q ≠ 7 := mt List.mem_singleton.mpr hmem
    rw [State.setReg_reg]
    split
    · next hqr => rw [hv, ← hqr, if_neg hne]
    · exact s.pushed_reg v hne
  refine ⟨exec_pop_of_sp_ne_255 r (by rw [hload, hq]) (pred_ne_255 hsp), ?_⟩
  rw [State.popped, hload, BitVec.sub_add_cancel]
  exact State.setSp_x_of_sameRegistersBut hregs

/-- The step of a RETURN that lies where a CALL jumped completes: it comes back to the CALL's return address with every
register as before the CALL (44_control_flow.md section 7). -/
theorem stepWith_ret_after_call (target : Byte) {v : Byte} (hr : s.runState = .running) (hw : s.mem.wf = true)
    (hsp : s.sp ≠ 0) (ht : t = (s.pushed v).jumpTo target) (hop : t.mem.read t.pc.toNat = m.byte .ret) :
    stepWith m t = .next ((t.setSp s.sp).jumpTo v) ∧ (t.setSp s.sp).x = s.x := by
  subst ht
  have hne : ((s.pushed v).jumpTo target).sp ≠ 255 := by
    rw [State.jumpTo_sp, State.pushed_sp]
    exact pred_ne_255 hsp
  have hfetch : Fetches m ((s.pushed v).jumpTo target) .ret [] := ⟨hr, pcOfByte_le target, hop, nofun⟩
  have hstep := (result_settingPc (m := m) (exec_ret_of_sp_ne_255 hne) rfl).2 hfetch
  rw [State.jumpTo_sp, State.pushed_sp, State.jumpTo_load, State.pushed_load v hw, BitVec.sub_add_cancel] at hstep
  exact ⟨hstep, State.setSp_x_of_sameRegistersBut fun q hq => s.pushed_reg v (mt List.mem_singleton.mpr hq)⟩

/-! #### pc after a PUSH or a CALL -/

/-- An address up to 253 and 2 more is again a byte: no wrap, neither of pc nor of the return address. -/
theorem pc_add_two_toNat {pc : PcWord} (h : pc.toNat + 2 ≤ 255) : (pc + 2).toNat = pc.toNat + 2 := by bv_omega

theorem pcOfByte_returnAddress {pc : PcWord} (h : pc.toNat + 2 ≤ 255) :
    (BitVec.ofNat 8 (pc.toNat + 2)).zeroExtend 9 = pc + 2 := by
  apply BitVec.eq_of_toNat_eq
  rw [pc_add_two_toNat h]
  simp; omega

theorem pcOfByte_toNat (v : Byte) : (v.zeroExtend 9).toNat = v.toNat := by
  have := v.isLt
  simp; omega

/-- Where pc lies at the cell a push wrote, the next step fetches the pushed byte (20_memory.md R62). -/
theorem nextOpcodeIs_pushed {v : Byte} (hr : t.runState = .running) (hw : s.mem.wf = true)
    (hmem : t.mem = (s.pushed v).mem) (hpc : t.pc.toNat = (s.sp - 1).toNat) : NextOpcodeIs m t v := by
  have hle : t.pc.toNat ≤ 255 := by have := (s.sp - 1).isLt; omega
  have hread : t.mem.read t.pc.toNat = v := by
    rw [hmem, hpc]
    exact State.pushed_load v hw
  have hnext := nextOpcodeIs_read (m := m) hr hle
  rwa [hread] at hnext

/-! #### How many handlers of one kind complete -/

/-- From every Running state, the handler of `i` uses up one unit of `room`, or faults where none is left. -/
def Consumes (room : State → Nat) (i : Instr) : Prop :=
  ∀ s : State, s.runState = .running →
    (room s = 0 → ∃ c op, exec i s = .next (s.faultEntry c op)) ∧
    (room s ≠ 0 → ∃ t, exec i s = .next t ∧ t.runState = .running ∧ room t + 1 = room s)

/-- A list of such handlers completes exactly when it is no longer than the room there is, and uses it up by its length. -/
theorem execAll_of_consumes {room : State → Nat} : ∀ {is : List Instr} {s : State}, (∀ i ∈ is, Consumes room i) →
    s.runState = .running →
      (is.length ≤ room s → ∃ t, execAll is s = some t ∧ room t + is.length = room s) ∧
      (room s < is.length → execAll is s = none)
  | [], s, _, _ => ⟨fun _ => ⟨s, rfl, rfl⟩, fun h => absurd h (Nat.not_lt_zero _)⟩
  | i :: is, s, hall, hr => by
    obtain ⟨hi, his⟩ := List.forall_mem_cons.mp hall
    obtain ⟨hempty, hroom⟩ := hi s hr
    rw [List.length_cons]
    by_cases h0 : room s = 0
    · obtain ⟨c, op, he⟩ := hempty h0
      exact ⟨fun h => by omega, fun _ => by simp [execAll, he]⟩
    · obtain ⟨t, he, hrt, ht⟩ := hroom h0
      have hexec : execAll (i :: is) s = execAll is t := by simp [execAll, he, State.not_faulted_of_running hrt]
      obtain ⟨hle, hlt⟩ := execAll_of_consumes his hrt
      rw [hexec]
      refine ⟨fun h => ?_, fun h => hlt (by omega)⟩
      obtain ⟨u, hu, hsum⟩ := hle (by omega)
      exact ⟨u, hu, by omega⟩

/-- A PUSH uses up one of the SP cells below the top (70_reset_and_hazards.md section 3). -/
theorem consumes_push (r : RegIdx) : Consumes (fun s => s.sp.toNat) (.push (regByte r)) := by
  refine fun s hr => ⟨fun h => ⟨_, _, exec_push_of_sp_zero r (BitVec.eq_of_toNat_eq h)⟩, fun h => ?_⟩
  have hsp : s.sp ≠ 0 := fun hz => h (by simp [hz])
  refine ⟨_, exec_push_of_sp_ne_zero r hsp, hr, ?_⟩
  beta_reduce
  rw [State.pushed_sp]
  bv_omega

/-- A POP into a register other than SP uses up one of the 255 - SP cells from the top on (70_reset_and_hazards.md
section 3). -/
theorem consumes_pop {r : RegIdx} (hr7 : r ≠ 7) : Consumes (fun s => 255 - s.sp.toNat) (.pop (regByte r)) := by
  intro s hr
  have hsp : (s.setReg r (s.load s.sp)).sp = s.sp := (State.setReg_sp r _).trans (if_neg hr7)
  refine ⟨fun h => ⟨_, _, exec_pop_of_sp_255 r (hsp.trans ?_)⟩, fun h => ?_⟩
  · bv_omega
  · have hne : s.sp ≠ 255 := fun hz => h (by simp [hz])
    refine ⟨_, exec_pop_of_sp_ne_255 r hsp hne, hr, ?_⟩
    beta_reduce
    rw [State.popped, State.setSp_sp]
    bv_omega

end Sys2Proof.Machine

namespace Sys2Proof

open Machine

/-- Settles O41: the POP reads the pushed byte back and increments the decremented SP. -/
theorem pushThenPopRestores : Obligations.PushThenPopRestores := by
  intro r s hw hsp
  obtain ⟨hpop, hx⟩ := exec_pop_after_push r rfl hw hsp
  exact ⟨_, _, exec_push_of_sp_ne_zero r hsp, hpop, hx, State.pushed_load _ hw, s.pushed_sameMemoryBut _, rfl, rfl, rfl,
    rfl, rfl, rfl⟩

/-- Settles O42: the RETURN pops the return address the CALL pushed, and the popped SP is the old one. -/
theorem callThenReturnComesBack : Obligations.CallThenReturnComesBack := by
  intro m r s hw hfetch hpc hsp
  have hpc2 : s.pc.toNat + 2 ≤ 255 := by omega
  refine ⟨_, (result_settingPc (exec_call_of_pushed r hsp hpc2) rfl).2 hfetch, fun hop => ?_⟩
  obtain ⟨hret, hx⟩ := stepWith_ret_after_call _ hfetch.1 hw hsp rfl hop
  exact ⟨_, hret, pcOfByte_returnAddress hpc2, hx, State.pushed_load _ hw, s.pushed_sameMemoryBut _, rfl, rfl, rfl, rfl, rfl⟩

/-- Settles O43: each PUSH uses up one of SP cells and each POP one of 255 - SP, by induction on the list. -/
theorem stackDepthIsBoundedBySp : Obligations.StackDepthIsBoundedBySp := by
  intro rs s hr
  have hpush := execAll_of_consumes (is := rs.map fun r => .push (regByte r))
    (List.forall_mem_map.mpr fun r _ => consumes_push r) hr
  have hpop := fun h7 : ∀ r ∈ rs, r ≠ 7 => execAll_of_consumes (is := rs.map fun r => .pop (regByte r))
    (List.forall_mem_map.mpr fun r hmem => consumes_pop (h7 r hmem)) hr
  simp only [List.length_map] at hpush hpop
  refine ⟨fun h => ?_, hpush.2, fun h7 h => ?_, fun h7 => (hpop h7).2⟩
  · obtain ⟨t, ht, hsum⟩ := hpush.1 h
    exact ⟨t, ht, by omega⟩
  · obtain ⟨t, ht, hsum⟩ := (hpop h7).1 h
    have hlt := s.sp.isLt
    have hlt' := t.sp.isLt
    exact ⟨t, ht, by omega⟩

/-- Settles O44: the step's new pc is, or is not, the cell that its push wrote, and the instruction was fetched before. -/
theorem pushedByteIsTheNextOpcode : Obligations.PushedByteIsTheNextOpcode := by
  constructor
  · intro m r s v hw hsp hfetch hv
    have hstep : stepWith m s = .next ((s.pushed v).setPc (s.pc + 2)) := by
      rw [hv]
      exact (result_advancing (exec_push_of_sp_ne_zero r hsp) rfl rfl).2 hfetch
    refine ⟨fun hcell => ⟨_, hstep, rfl, ?_⟩, fun _ => ⟨_, hstep, State.pushed_load v hw, rfl⟩⟩
    have hpc2 : s.pc.toNat + 2 ≤ 255 := by have := (s.sp - 1).isLt; omega
    have hnext : NextOpcodeIs m ((s.pushed v).setPc (s.pc + 2)) v :=
      nextOpcodeIs_pushed hfetch.1 hw rfl ((pc_add_two_toNat hpc2).trans hcell.symm)
    refine ⟨hnext, fun hhalt n => ?_⟩
    obtain ⟨hle, hread, -⟩ := hnext
    have hfetchHalt : Fetches m ((s.pushed v).setPc (s.pc + 2)) .halt [] :=
      fetches_halt_iff.mpr ⟨hfetch.1, hle, hread.trans hhalt⟩
    obtain ⟨hloop, -⟩ := loopEndsAfterHaltStep.1 m _ n hfetchHalt
    rw [runLoop_succ hstep, hloop]
    exact ⟨rfl, rfl, BitVec.add_assoc s.pc 2 1⟩
  · rintro m r s target hw hsp hfetch hpc2 rfl
    have hstep := (result_settingPc (exec_call_of_pushed r hsp hpc2) rfl).2 hfetch
    refine ⟨fun htarget => ⟨_, hstep, ?_⟩, fun _ => ⟨_, hstep, State.pushed_load _ hw, rfl⟩⟩
    have hpc := (congrArg (fun v : Byte => (v.zeroExtend 9).toNat) htarget).trans (pcOfByte_toNat (s.sp - 1))
    exact ⟨hpc, nextOpcodeIs_pushed hfetch.1 hw rfl hpc⟩

end Sys2Proof

/-! ### What no step reads: L and G, halt_reason, diag and out (10_state.md sections 4, 6 and 7)

A handler's answer is described once: a state that does not depend on the parts no handler reads, and a change of those
parts that is fixed before they are known. -/

namespace Sys2Proof.Machine

variable {m : OpcodeMap} {s t : State}

/-! #### The parts no handler reads -/

/-- The parts of the state that no handler reads. The step reads `runState`, and of the others none while Running. -/
structure Rest where
  L : Bool
  G : Bool
  runState : RunState
  haltReason : HaltReason
  diag : Option Diag
  out : List Byte

/-- These parts of a state. -/
def State.rest (s : State) : Rest :=
  { L := s.flags.L, G := s.flags.G, runState := s.runState, haltReason := s.haltReason, diag := s.diag, out := s.out }

/-- The state with these parts replaced. -/
def State.withRest (s : State) (w : Rest) : State :=
  { s with flags := { s.flags with L := w.L, G := w.G }, runState := w.runState, haltReason := w.haltReason,
           diag := w.diag, out := w.out }

@[simp] theorem State.withRest_pc (s : State) (w : Rest) : (s.withRest w).pc = s.pc := rfl

/-- What a handler does to them: each is left alone (`none`), or set, and `out` is appended to. Halting sets run_state. -/
structure Change where
  compared : Option (Bool × Bool) := none
  halted : Option HaltReason := none
  recorded : Option Diag := none
  emitted : Option Byte := none

/-- The parts after the change. -/
def Change.apply (c : Change) (w : Rest) : Rest where
  L := c.compared.elim w.L Prod.fst
  G := c.compared.elim w.G Prod.snd
  runState := c.halted.elim w.runState fun _ => .halted
  haltReason := c.halted.getD w.haltReason
  diag := c.recorded.or w.diag
  out := c.emitted.elim w.out fun v => w.out ++ [v]

theorem Change.apply_out (c : Change) (w : Rest) : (c.apply w).out = w.out ++ c.emitted.toList := by
  obtain ⟨_, _, _, _ | v⟩ := c
  · exact (List.append_nil _).symm
  · rfl

/-- Fault entry's change, with the opcode byte it records (60_exceptions.md R226). -/
def State.faultChange (s : State) (c : Cause) (op : Option Byte) : Change where
  halted := some c.haltReason
  recorded := some { pc := s.pc, opcode := op, detail := c.detail }

/-- COMPARE's change, with the flags it computes (41_alu.md R134). -/
def Flags.change (f : Flags) : Change where
  compared := some (f.L, f.G)

/-! #### The operations of a handler -/

theorem State.decSp_withRest (s : State) (w : Rest) : (s.withRest w).decSp = s.decSp.map (·.withRest w) := by
  rcases s.decSp_cases with ⟨h, hd⟩ | ⟨h, hd⟩
  · rw [hd]; exact if_pos h
  · rw [hd]; exact if_neg h

theorem State.incSp_withRest (s : State) (w : Rest) : (s.withRest w).incSp = s.incSp.map (·.withRest w) := by
  rcases s.incSp_cases with ⟨h, hd⟩ | ⟨h, hd⟩
  · rw [hd]; exact if_pos h
  · rw [hd]; exact if_neg h

theorem State.push_withRest (s : State) (v : Nat) (w : Rest) : (s.withRest w).push v = (s.push v).map (·.withRest w) := by
  rw [State.push, State.push, State.decSp_withRest]
  cases s.decSp with
  | error c => rfl
  | ok t =>
    by_cases hv : 255 < v
    · simp [Except.map, hv]
    · simp [Except.map, hv]; rfl

theorem State.popValue_withRest (s : State) (w : Rest) :
    (s.withRest w).popValue = s.popValue.map fun p => (p.1, p.2.withRest w) := by
  rw [State.popValue, State.popValue, State.incSp_withRest]
  cases s.incSp <;> rfl

theorem State.branch_withRest (s : State) (w : Rest) (taken : Bool) (target : Byte) :
    (s.withRest w).branch taken target = (s.branch taken target).withRest w := by
  cases taken <;> rfl

theorem State.fetchOperands_withRest (s : State) (w : Rest) :
    ∀ n k : Nat, (s.withRest w).fetchOperands n k = s.fetchOperands n k
  | 0, _ => rfl
  | n + 1, k => by
    rw [State.fetchOperands, State.fetchOperands, s.fetchOperands_withRest w n (k + 1)]
    rfl

/-- The fetch reads pc and memory alone (40_execution_loop.md R102 to R104). -/
theorem State.fetch_withRest (s : State) (w : Rest) : (s.withRest w).fetch m = s.fetch m := by
  simp only [State.fetch, State.fetchOperands_withRest]
  rfl

/-! #### Handlers -/

/-- A staged result that is the same fault, or the same state and change, whatever the parts it does not read. -/
def StagesOneChange (staged : Rest → Except Cause State) : Prop :=
  (∃ c, ∀ w, staged w = .error c) ∨ ∃ (t : State) (c : Change), ∀ w, staged w = .ok (t.withRest (c.apply w))

theorem stagesOneChange_of_ok (t : State) (c : Change) {staged : Rest → Except Cause State}
    (h : ∀ w, staged w = .ok (t.withRest (c.apply w))) : StagesOneChange staged := .inr ⟨t, c, h⟩

/-- A register operand is checked without reading the state. -/
theorem stagesOneChange_withReg (a : Byte) {k : Rest → RegIdx → Except Cause State}
    (h : ∀ r, StagesOneChange fun w => k w r) : StagesOneChange fun w => withReg a (k w) := by
  by_cases ha : a.toNat < 8
  · simpa only [withReg_of_lt ha] using h ⟨a.toNat, ha⟩
  · exact .inl ⟨_, fun w => withReg_of_ge (Nat.not_lt.mp ha) (k w)⟩

/-- Committing a result that is staged so is one change (00_scope.md R13). -/
theorem commit_oneChange {staged : Rest → Except Cause State} (h : StagesOneChange staged) :
    ∃ (t : State) (c : Change), ∀ w, commit (s.withRest w) (staged w) = .next (t.withRest (c.apply w)) := by
  rcases h with ⟨c, hc⟩ | ⟨t, c, hc⟩
  · exact ⟨s, s.faultChange c s.opcodeAtPc, fun w => by rw [hc w]; rfl⟩
  · exact ⟨t, c, fun w => by rw [hc w]; rfl⟩

/-- Every handler answers one state and one change, whatever the parts it does not read. -/
theorem exec_oneChange (i : Instr) (s : State) :
    ∃ (t : State) (c : Change), ∀ w, exec i (s.withRest w) = .next (t.withRest (c.apply w)) := by
  cases i with
  | halt => exact ⟨s, { halted := some .haltInstruction }, fun _ => rfl⟩
  | loadImmediate reg value =>
    exact commit_oneChange (stagesOneChange_withReg reg fun r => stagesOneChange_of_ok (s.setReg r value) {} fun _ => rfl)
  | printRegister reg =>
    exact commit_oneChange (stagesOneChange_withReg reg fun r =>
      stagesOneChange_of_ok s { emitted := some (s.reg r) } fun _ => rfl)
  | multiply regA regB =>
    exact commit_oneChange (stagesOneChange_withReg regA fun a => stagesOneChange_withReg regB fun b =>
      stagesOneChange_of_ok (s.setReg a (alu .mul (s.reg a) (s.reg b))) {} fun _ => rfl)
  | add regA regB =>
    exact commit_oneChange (stagesOneChange_withReg regA fun a => stagesOneChange_withReg regB fun b =>
      stagesOneChange_of_ok (s.setReg a (alu .add (s.reg a) (s.reg b))) {} fun _ => rfl)
  | compare regA regB =>
    exact commit_oneChange (stagesOneChange_withReg regA fun a => stagesOneChange_withReg regB fun b =>
      stagesOneChange_of_ok (s.setFlags (compareFlags (s.reg a) (s.reg b)))
        (Flags.change (compareFlags (s.reg a) (s.reg b))) fun _ => rfl)
  | push reg =>
    refine commit_oneChange (stagesOneChange_withReg reg fun r => ?_)
    simp only [State.decSp_withRest]
    cases s.decSp with
    | error c => exact .inl ⟨c, fun _ => rfl⟩
    | ok t => exact stagesOneChange_of_ok (t.store t.sp (t.reg r)) {} fun _ => rfl
  | pop reg =>
    refine commit_oneChange (stagesOneChange_withReg reg fun r => ?_)
    have hinc := fun w => (s.setReg r (s.load s.sp)).incSp_withRest w
    cases hd : (s.setReg r (s.load s.sp)).incSp with
    | error c => exact .inl ⟨c, fun w => (hinc w).trans (by rw [hd]; rfl)⟩
    | ok t => exact stagesOneChange_of_ok t {} fun w => (hinc w).trans (by rw [hd]; rfl)
  | call reg =>
    refine commit_oneChange (stagesOneChange_withReg reg fun r => ?_)
    simp only [State.push_withRest, State.withRest_pc]
    cases s.push (s.pc.toNat + 2) with
    | error c => exact .inl ⟨c, fun _ => rfl⟩
    | ok t => exact stagesOneChange_of_ok (t.jumpTo (t.reg r)) {} fun _ => rfl
  | ret =>
    refine commit_oneChange ?_
    simp only [State.popValue_withRest]
    cases s.popValue with
    | error c => exact .inl ⟨c, fun _ => rfl⟩
    | ok p => exact stagesOneChange_of_ok (p.2.jumpTo p.1) {} fun _ => rfl
  | jump reg =>
    exact commit_oneChange (stagesOneChange_withReg reg fun r =>
      stagesOneChange_of_ok (s.jumpTo (s.reg r)) {} fun _ => rfl)
  | jumpIfEqual reg =>
    exact commit_oneChange (stagesOneChange_withReg reg fun r =>
      stagesOneChange_of_ok (s.branch s.flags.E (s.reg r)) {} fun w => congrArg _ (s.branch_withRest w _ _))
  | jumpIfNotEqual reg =>
    exact commit_oneChange (stagesOneChange_withReg reg fun r =>
      stagesOneChange_of_ok (s.branch (!s.flags.E) (s.reg r)) {} fun w => congrArg _ (s.branch_withRest w _ _))

/-! #### Steps -/

/-- Whether a change from Running is a fault's does not depend on what was there before it. -/
theorem Change.faulted_const (t : State) (c : Change) :
    ∃ b, ∀ w : Rest, w.runState = .running → (t.withRest (c.apply w)).faulted = b := by
  obtain ⟨_, _ | r, _, _⟩ := c
  · exact ⟨false, fun w hw => State.not_faulted_of_running hw⟩
  · exact ⟨(t.halt r).faulted, fun w _ => rfl⟩

/-- The pc advance reads the opcode and whether the handler faulted (40_execution_loop.md R107). -/
theorem State.advancePc_oneChange (t : State) (c : Change) (op : Byte) :
    ∃ u : State, ∀ w : Rest, w.runState = .running →
      (t.withRest (c.apply w)).advancePc op = u.withRest (c.apply w) := by
  obtain ⟨b, hb⟩ := c.faulted_const t
  cases hset : opcodeSetsPc op with
  | true => exact ⟨t, fun w _ => State.advancePc_of_setsPc hset⟩
  | false =>
    cases b with
    | true => exact ⟨t, fun w hw => State.advancePc_of_faulted op (hb w hw)⟩
    | false =>
      exact ⟨t.setPc (t.pc + BitVec.ofNat 9 (opcodeLength op)), fun w hw =>
        State.advancePc_of_not_setsPc (hb w hw) hset⟩

/-- A step from Running answers one state and one change, whatever the parts it does not read. -/
theorem stepWith_oneChange (m : OpcodeMap) (s : State) :
    ∃ (t : State) (c : Change), ∀ w : Rest, w.runState = .running →
      stepWith m (s.withRest w) = .next (t.withRest (c.apply w)) := by
  cases hf : s.fetch m with
  | error f =>
    exact ⟨s, s.faultChange f.cause f.opcode, fun w hw => stepWith_fetch_error hw ((s.fetch_withRest w).trans hf)⟩
  | ok f =>
    obtain ⟨t, c, he⟩ := exec_oneChange f.instr s
    obtain ⟨u, hu⟩ := t.advancePc_oneChange c f.opcode
    exact ⟨u, c, fun w hw => by rw [stepWith_fetch_ok hw ((s.fetch_withRest w).trans hf) (he w), hu w hw]⟩

/-- A step that answers, as the change that every step from a state of the same core makes. -/
theorem stepWith_change (h : stepWith m s = .next t) :
    s.runState = .running ∧ ∃ (v : State) (c : Change), t = v.withRest (c.apply s.rest) ∧
      ∀ w : Rest, w.runState = .running → stepWith m (s.withRest w) = .next (v.withRest (c.apply w)) := by
  obtain ⟨hr, -⟩ := stepWith_cases h
  obtain ⟨v, c, hstep⟩ := stepWith_oneChange m s
  refine ⟨hr, v, c, ?_, hstep⟩
  have hsame : stepWith m s = .next (v.withRest (c.apply s.rest)) := hstep s.rest hr
  rw [h] at hsame
  cases hsame
  rfl

end Sys2Proof.Machine

namespace Sys2Proof

open Machine

/-- Settles O34: from other L and G the step makes the same change, which can set no more than L and G differently. -/
theorem lessAndGreaterAreNeverRead : Obligations.LessAndGreaterAreNeverRead := by
  intro m s t l g h
  obtain ⟨hr, v, c, rfl, hstep⟩ := stepWith_change h
  exact ⟨_, _, hstep { s.rest with L := l, G := g } hr⟩

/-- Settles O35: from another halt_reason, diag and out the step makes the same change, and emits the same. -/
theorem statusAndOutputAreNeverRead : Obligations.StatusAndOutputAreNeverRead := by
  intro m s t r d o h
  obtain ⟨hr, v, c, rfl, hstep⟩ := stepWith_change h
  exact ⟨_, c.emitted.toList, hstep { s.rest with haltReason := r, diag := d, out := o } hr, ⟨rfl, rfl, rfl, rfl, rfl⟩,
    c.apply_out _, c.apply_out _⟩

end Sys2Proof
